-- ==== Sys2Proof/Word.lean ====
section
/-! DEFINITION. The words of `sha1_pipeline`: every value of the datapath is an unsigned integer of exactly 32 bits
(R7, R93), a command word has 40 bits (R72), the digest 160 (R160). -/

namespace Sys2Proof

/-- A 32-bit word of the datapath: a hash register, a working register, a schedule word, a data field (R7, R93). -/
abbrev Word := BitVec 32

/-- A byte of a message (R170); the block itself never sees one (R51). -/
abbrev Byte := BitVec 8

/-- A 40-bit command word, as it stands on the port `cmd` (R70, R72). -/
abbrev CmdWord := BitVec 40

end Sys2Proof
end

