-- ==== Sys2Proof/Syntax.lean ====
section
/-! DEFINITION. The instructions: one constructor for each row of spec/opcode_table.json, nine of format CMD40 (R73, R85)
and three micro-operations of format PHASE2 (R80). -/

namespace Sys2Proof

/-- The twelve rows of the opcode table. The fields of a constructor are the fields that command USES (R73, R75): a word's
unused bits take no part in decoding and have no place here. -/
inductive Instr where
  /-- `op` 0: do nothing (R100). -/
  | nop
  /-- `op` 1: load the hash state with its initial constants (R101). -/
  | init
  /-- `op` 2: store one word of the chunk (R102). All sixteen values of `idx` are legal. -/
  | loadw (idx : BitVec 4) (data : Word)
  /-- `op` 3: compress the chunk into the hash state (R103). -/
  | start
  /-- `op` 4: read one word of the hash state (R104). `idx` 5 to 15 decode and are refused by the core (R79, R81). -/
  | rddig (idx : BitVec 4)
  /-- `op` 5: read the status word (R105). -/
  | rdstat
  /-- `op` 6: clear the sticky error flag (R106). -/
  | clrerr
  /-- `op` 7: reserved (R107, table row RESERVED_7). -/
  | reserved7
  /-- `op` 8 to 15: reserved (R107, table row RESERVED_8_15); `op` is the operation code, as `RESERVED op` of R81. -/
  | reserved8to15 (op : BitVec 4)
  /-- Micro-operation of phase 01: write one schedule word (R121). -/
  | expand
  /-- Micro-operation of phase 10: one compression round (R134). -/
  | round
  /-- Micro-operation of phase 11: add the working registers into the hash state (R139). -/
  | fold
  deriving DecidableEq, Repr

/-- True of the nine rows that a command word encodes (format CMD40), false of the three micro-operations, "which no
command word encodes" (R80). -/
def Instr.isCommand : Instr → Bool
  | .nop => true
  | .init => true
  | .loadw _ _ => true
  | .start => true
  | .rddig _ => true
  | .rdstat => true
  | .clrerr => true
  | .reserved7 => true
  | .reserved8to15 _ => true
  | .expand => false
  | .round => false
  | .fold => false

end Sys2Proof
end

