-- ==== Sys2Proof/WellFormed.lean ====
section
/-! DEFINITION. Which terms of `Instr` stand for an encoding of the table. -/

namespace Sys2Proof

/-- The one check: the operation code of `RESERVED_8_15` is 8 to 15 (R85: the row's match and mask are 0x8000000000).
Every other constructor's fields are legal at every value of their width (R50, R81). -/
def Instr.wellFormed : Instr → Bool
  | .nop => true
  | .init => true
  | .loadw _ _ => true
  | .start => true
  | .rddig _ => true
  | .rdstat => true
  | .clrerr => true
  | .reserved7 => true
  | .reserved8to15 op => decide (8 ≤ op.toNat)
  | .expand => true
  | .round => true
  | .fold => true

/-- An instruction the encoding tables can express. -/
abbrev WellFormed (i : Instr) : Prop := i.wellFormed = true

end Sys2Proof
end

