-- ==== Sys2Proof/Decode.lean ====
section
/-! DEFINITION. The decoder of the command port (R72 to R75, R79, R81), the selection of a micro-operation by the phase
bits (R80), the encoder written from the same tables, and the opcode table's match and mask rows (R73, R85). -/

namespace Sys2Proof

/-- The two formats of the opcode table: a 40-bit command word (CMD40, R72) or the two bits of `phase` (PHASE2, R80). -/
inductive Code where
  | cmd (w : CmdWord)
  | phase (p : BitVec 2)
  deriving DecidableEq, Repr

/-- Why a code names no instruction. -/
inductive DecodeError where
  /-- `phase` 00 is `IDLE`: no micro-operation at this edge (R80). Every command word decodes (R81). -/
  | idlePhase
  deriving DecidableEq, Repr

/-- `op`, bits 39 to 36 (R72). -/
def opField (w : CmdWord) : BitVec 4 := w.extractLsb' 36 4

/-- `idx`, bits 35 to 32, unsigned, as it stands (R72, R74). -/
def idxField (w : CmdWord) : BitVec 4 := w.extractLsb' 32 4

/-- `data`, bits 31 to 0, unsigned, as it stands (R72, R74). -/
def dataField (w : CmdWord) : Word := w.extractLsb' 0 32

/-- The decoder of the command port, total on 40-bit words: a case on `op` (R81, R73). It reads no state. -/
def decodeCmd (w : CmdWord) : Instr :=
  match (opField w).toNat with
  | 0 => .nop
  | 1 => .init
  | 2 => .loadw (idxField w) (dataField w)
  | 3 => .start
  | 4 => .rddig (idxField w)
  | 5 => .rdstat
  | 6 => .clrerr
  | 7 => .reserved7
  | _ => .reserved8to15 (opField w)

/-- The micro-operation that the phase bits select (R80). -/
def decodePhase (p : BitVec 2) : Except DecodeError Instr :=
  match p.toNat with
  | 1 => .ok .expand
  | 2 => .ok .round
  | 3 => .ok .fold
  | _ => .error .idlePhase

/-- The decoder over both formats; it refuses one code, by name: the idle phase. -/
def decode : Code → Except DecodeError Instr
  | .cmd w => .ok (decodeCmd w)
  | .phase p => decodePhase p

/-- A command word from its three fields: `op ‖ idx ‖ data` (R72). -/
def cmdOf (op idx : BitVec 4) (data : Word) : CmdWord := op ++ idx ++ data

/-- The encoder: the word an assembler emits, zeros in every unused field (R73, R75, R83), and the phase bits of a
micro-operation (R80). -/
def encode : Instr → Code
  | .nop => .cmd (cmdOf 0x0 0 0)
  | .init => .cmd (cmdOf 0x1 0 0)
  | .loadw idx data => .cmd (cmdOf 0x2 idx data)
  | .start => .cmd (cmdOf 0x3 0 0)
  | .rddig idx => .cmd (cmdOf 0x4 idx 0)
  | .rdstat => .cmd (cmdOf 0x5 0 0)
  | .clrerr => .cmd (cmdOf 0x6 0 0)
  | .reserved7 => .cmd (cmdOf 0x7 0 0)
  | .reserved8to15 op => .cmd (cmdOf op 0 0)
  | .expand => .phase 0b01
  | .round => .phase 0b10
  | .fold => .phase 0b11

/-- A CMD40 row of the opcode table: a word `w` belongs to it when `w AND mask = pattern` (R73, R85). -/
structure CmdRow where
  mnemonic : String
  pattern : CmdWord
  mask : CmdWord
  deriving DecidableEq, Repr

/-- A word belongs to a row (R73, R85). -/
def CmdRow.accepts (r : CmdRow) (w : CmdWord) : Bool := w &&& r.mask == r.pattern

/-- The nine CMD40 rows of spec/opcode_table.json, in its order (R73, R85). -/
def cmdRows : List CmdRow :=
  [ ⟨"NOP", 0x0000000000, 0xF000000000⟩,
    ⟨"INIT", 0x1000000000, 0xF000000000⟩,
    ⟨"LOADW", 0x2000000000, 0xF000000000⟩,
    ⟨"START", 0x3000000000, 0xF000000000⟩,
    ⟨"RDDIG", 0x4000000000, 0xF000000000⟩,
    ⟨"RDSTAT", 0x5000000000, 0xF000000000⟩,
    ⟨"CLRERR", 0x6000000000, 0xF000000000⟩,
    ⟨"RESERVED_7", 0x7000000000, 0xF000000000⟩,
    ⟨"RESERVED_8_15", 0x8000000000, 0x8000000000⟩ ]

/-- The mnemonic of an instruction in spec/opcode_table.json. -/
def Instr.mnemonic : Instr → String
  | .nop => "NOP"
  | .init => "INIT"
  | .loadw _ _ => "LOADW"
  | .start => "START"
  | .rddig _ => "RDDIG"
  | .rdstat => "RDSTAT"
  | .clrerr => "CLRERR"
  | .reserved7 => "RESERVED_7"
  | .reserved8to15 _ => "RESERVED_8_15"
  | .expand => "EXPAND"
  | .round => "ROUND"
  | .fold => "FOLD"

/-- The instruction of a code numbered as spec/opcode_table.json numbers it: a row of at most 8 bits is the two phase bits
(PHASE2; a value above 3 is no phase), a row of at most 40 bits a command word (CMD40; a value of more than 40 bits is
none). The block stores no commands (R62), so there is no byte order to apply: bit k of `w` is bit k of `cmd` (R72). -/
def codeOfTableWord (nbits w : Nat) : Option Code :=
  if nbits ≤ 8 then (if w < 4 then some (.phase (BitVec.ofNat 2 w)) else none)
  else if nbits ≤ 40 then (if w < 2 ^ 40 then some (.cmd (BitVec.ofNat 40 w)) else none)
  else none

/-- The instruction the decoder reads from an instruction whose bits are `w`, or none where it refuses. -/
def decodeTableWord (nbits w : Nat) : Option Instr :=
  match codeOfTableWord nbits w with
  | none => none
  | some c =>
    match decode c with
    | .ok i => some i
    | .error _ => none

end Sys2Proof
end

