-- ==== Sys2Proof/Config.lean ====
section
/-! DEFINITION. What an implementation fixes (R7 to R9) and the free values (R14, R163, U3 to U5). -/

namespace Sys2Proof.Config

/-- The named parameters of the block: the initial hash state and the round constants (R8, R36), and the edge counts of
the three phases (R9, R236: timing only, no value the block computes depends on them). -/
structure Params where
  iv : Vector Word 5
  k : Vector Word 4
  tExpand : Nat
  tRound : Nat
  tFold : Nat
  deriving DecidableEq, Repr

/-- The values R8 and R9 give. R8 marks the nine words "from general knowledge, not in source" (K1, K2); the spec uses them
everywhere. DESIGN CHOICE (log entry 7): the model takes the spec's default values as constants. unsafe -/
def params : Params where
  iv := #v[0x67452301, 0xEFCDAB89, 0x98BADCFE, 0x10325476, 0xC3D2E1F0]
  k := #v[0x5A827999, 0x6ED9EBA1, 0x8F1BBCDC, 0xCA62C1D6]
  tExpand := 64
  tRound := 80
  tFold := 1

/-- `T_BUSY`: edges from the one that accepts `START` to the one that makes the core ready again (R9, R236). -/
def tBusy : Nat := params.tExpand + params.tRound + params.tFold

/-- The five working registers by name (R22). -/
inductive WorkReg where
  | a | b | c | d | e
  deriving DecidableEq, Repr

/-- The state elements that can hold no value (R14, R37): `H[i]`, a working register, `W[i]`. -/
inductive Elem where
  | hash (i : Fin 5)
  | work (r : WorkReg)
  | sched (i : Fin 80)
  deriving DecidableEq, Repr

/-- FREE VALUE: the bits found in an element that holds no value ("its bits are unspecified, may differ between two
implementations and between two runs", R14), at the draw number of the state it is read in. It has no body: nothing can
be proved of it. Log entry 3. safe -/
opaque freeWord : Nat → Elem → Word

/-- FREE VALUE: what `rsp_code` shows while `rsp_valid = 0` (R76, U5). Log entry 16. safe -/
opaque freeRspCode : Nat → BitVec 3

/-- FREE VALUE: what `rsp_data` shows while `rsp_valid = 0` (R76, U5). Log entry 16. safe -/
opaque freeRspData : Nat → Word

end Sys2Proof.Config
end

