-- ==== Sys2Proof/Machine/State.lean ====
section
/-! DEFINITION. The state of `sha1_pipeline` (R20), what a step can stop with, and the state after reset (R37). -/

namespace Sys2Proof.Machine

/-- The four values of `phase` (R26); their bits are `Phase.bits` in Machine/Operands.lean (R80). -/
inductive Phase where
  | idle | expand | round | fold
  deriving DecidableEq, Repr

/-- The response codes (R191); their bits are `RspCode.bits` in Machine/Flags.lean. Codes 6 and 7 are never produced. -/
inductive RspCode where
  | ok | errIllegal | errIndex | errBusy | errNoinit | errIncomplete
  deriving DecidableEq, Repr

/-- The response of one edge (R76): `rsp_code` and `rsp_data` of an edge at which a command was taken. -/
structure Response where
  code : RspCode
  data : Word
  deriving DecidableEq, Repr

/-- What the host supplies at one edge (R15, R40, R70): `rst`, and either no command (`cmd_valid = 0`) or one command word. -/
structure Input where
  rst : Bool
  cmd : Option CmdWord
  deriving DecidableEq, Repr

/-- Everything the spec gives the machine (R20), the response register (R76), and the model's own two fields. An element
that can be `undef` ("holds no value", R14) is an Option; `none` is that condition, which R37 gives for reset and R139 writes.

`inputs` (log entry 1, DESIGN CHOICE, safe) lists what the host presents at the coming edges, oldest first; `rsp` (log entry
2, DEDUCED, safe) is the response of the latest edge; `draws` (log entry 4, DESIGN CHOICE, safe) numbers the edges, so that
the free values of two edges differ. -/
@[ext]
structure State where
  /-- The hash state `H[0..4]` (R21). -/
  H : Vector (Option Word) 5
  /-- Working register (R22). -/
  a : Option Word
  /-- Working register (R22). -/
  b : Option Word
  /-- Working register (R22). -/
  c : Option Word
  /-- Working register (R22). -/
  d : Option Word
  /-- Working register (R22). -/
  e : Option Word
  /-- The schedule store `W[0..79]`; `W[0..15]` is the block buffer (R23). -/
  W : Vector (Option Word) 80
  /-- Bit `i`: `W[i]` has been loaded since the last `FOLD` or reset (R25). -/
  mvalid : BitVec 16
  /-- The sequencer's phase (R26). -/
  phase : Phase
  /-- The index of the next schedule word or round (R27). -/
  t : BitVec 7
  /-- `H[0..4]` hold a value (R28). -/
  inited : Bool
  /-- At least one chunk folded since the last `INIT`, none in progress (R29). -/
  dvalid : Bool
  /-- The sticky error flag (R30). -/
  err : Bool
  /-- The code of the first command refused since `err` was last 0 (R31). -/
  ecode : BitVec 3
  /-- The response of the latest edge; `none` is `rsp_valid = 0` (R70, R76). -/
  rsp : Option Response
  /-- MODEL'S OWN: what the host presents at the coming edges. -/
  inputs : List Input
  /-- MODEL'S OWN: the draw number of the free values. -/
  draws : Nat
  deriving DecidableEq, Repr

/-- What the machine stops with. -/
inductive Fault where
  /-- Raised by `EXPAND` with `t` outside 16..79 and by `ROUND` with `t` above 79: `(phase, t)` is outside the set of R42, whose
  behaviour "is not specified" (U1, treatment `stuck`), and `t` names no word to write or read. No run from a reset gets
  there. Log entry 5. safe -/
  | sequencerOutOfRange
  deriving DecidableEq, Repr

/-- Why an instruction has no meaning in this model. (The block's own "refusals", R193, are next states, not these.) -/
inductive Refusal where
  /-- Raised by an arm of `exec` whose instruction is not modelled: no arm of this model. safe -/
  | notModelled (mnemonic : String)
  deriving DecidableEq, Repr

/-- The state after an edge with `rst = 1` (R37): control state cleared, `H`, `a..e` and `W` hold no value, no response. The
host presents nothing (log entry 1) and the draw number is 0 (log entry 4): the model's own choices. -/
def State.reset : State where
  H := Vector.replicate 5 none
  a := none
  b := none
  c := none
  d := none
  e := none
  W := Vector.replicate 80 none
  mvalid := 0
  phase := .idle
  t := 0
  inited := false
  dvalid := false
  err := false
  ecode := 0
  rsp := none
  inputs := []
  draws := 0

end Sys2Proof.Machine
end

