-- ==== Sys2Proof/Machine/Flags.lean ====
section
/-! DEFINITION. Every flag computation: `mvalid` (R25, R102, R103), the sticky error flag and its code (R30, R31, R193), the
bits of a response code (R191) and the status word (R78). There are no arithmetic condition codes (R34). -/

namespace Sys2Proof.Machine

/-- The three bits of a response code (R191). -/
def RspCode.bits : RspCode → BitVec 3
  | .ok => 0
  | .errIllegal => 1
  | .errIndex => 2
  | .errBusy => 3
  | .errNoinit => 4
  | .errIncomplete => 5

/-- `mvalid` with bit `idx` set, the other fifteen unchanged (R102). -/
def markLoaded (m : BitVec 16) (idx : BitVec 4) : BitVec 16 := m ||| BitVec.ofNat 16 (1 <<< idx.toNat)

/-- All sixteen words of the chunk are loaded (R103: `mvalid = 0xFFFF`). -/
def chunkLoaded (m : BitVec 16) : Bool := m == 0xFFFF

/-- `ecode` after a refusal with this code: the first code since `err` was last 0 is kept (R31, R193, R198). -/
def stickyCode (err : Bool) (ecode : BitVec 3) (code : RspCode) : BitVec 3 := if err then ecode else code.bits

/-- `READY`: the core is ready when `phase = IDLE` (R26); it is not stored (R34). -/
def State.ready (s : State) : Bool := decide (s.phase = .idle)

/-- A flag as a 32-bit number, `zext_32` of one bit (R78). -/
def flagWord (b : Bool) : Word := if b then 1 else 0

/-- `STATUS`, the formula of R78. Bits 15 to 7 are 0. -/
def State.status (s : State) : Word :=
  flagWord s.ready ||| (flagWord s.dvalid <<< 1) ||| (flagWord s.inited <<< 2) ||| (flagWord s.err <<< 3)
    ||| (s.ecode.setWidth 32 <<< 4) ||| (s.mvalid.setWidth 32 <<< 16)

end Sys2Proof.Machine
end

