-- ==== Sys2Proof/Machine/RotateLeft.lean ====
section
/-! DEFINITION. The unit `rotate_left` (R90, R94). The other primitives of the datapath are Lean's own on 32-bit vectors:
`+` is `+32` (R91, addition modulo 2^32, no carry kept), `&&&`, `|||`, `^^^`, `~~~` are AND, OR, XOR, NOT (R92). -/

namespace Sys2Proof.Machine

/-- `ROTL(x, n)`, the contract verbatim: `((x << n) | (x >> (32 - n))) mod 2^32` with shifts of unbounded naturals (R90,
R11). The amount has five bits, so `n >= 32` cannot be expressed (R94). -/
def rotl (x : Word) (n : BitVec 5) : Word :=
  BitVec.ofNat 32 ((x.toNat <<< n.toNat) ||| (x.toNat >>> (32 - n.toNat)))

end Sys2Proof.Machine
end

