-- ==== Sys2Proof/Machine/Schedule.lean ====
section
/-! DEFINITION. The unit `message_schedule_expander` as a combinational unit (R86, R120) and the schedule of a chunk as a
pure function (R120, R122, R140). -/

namespace Sys2Proof.Machine

/-- The expansion function on the four source words `W[i-3]`, `W[i-8]`, `W[i-14]`, `W[i-16]` (R120): the rotation is applied
after the three XORs. -/
def expandFn (w3 w8 w14 w16 : Word) : Word := rotl (w3 ^^^ w8 ^^^ w14 ^^^ w16) 1

/-- The next derived word of a schedule of which `ws` holds the words so far, the first first (R120). -/
def nextWord (ws : List Word) : Word :=
  expandFn (ws.getD (ws.length - 3) 0) (ws.getD (ws.length - 8) 0)
    (ws.getD (ws.length - 14) 0) (ws.getD (ws.length - 16) 0)

/-- `n` more derived words, in strictly increasing index order (R121, R123). -/
def extendSchedule : Nat → List Word → List Word
  | 0, ws => ws
  | n + 1, ws => extendSchedule n (ws ++ [nextWord ws])

/-- The eighty words of a chunk: words 0 to 15 are the chunk's own (R122), 16 to 79 are derived (R120). -/
def schedule (m : Vector Word 16) : List Word := extendSchedule 64 m.toList

end Sys2Proof.Machine
end

