-- ==== Sys2Proof/Machine/Compression.lean ====
section
/-! DEFINITION. The unit `compression_engine_80round` as pure functions: the mixing function and the constant of a round
(R131, R132), the round function (R133), the five sums of the fold (R139), one chunk (R140) and a sequence of chunks (R141). -/

namespace Sys2Proof.Machine

/-- The five words `(a, b, c, d, e)` (R22, R133). -/
structure Work where
  a : Word
  b : Word
  c : Word
  d : Word
  e : Word
  deriving DecidableEq, Repr

/-- Rounds 0 to 19: if `b` then `c` else `d`, bit by bit (R131). -/
def choose (b c d : Word) : Word := (b &&& c) ||| (~~~b &&& d)

/-- Rounds 20 to 39 and 60 to 79 (R131). -/
def parity (b c d : Word) : Word := b ^^^ c ^^^ d

/-- Rounds 40 to 59: at least two of the three (R131). -/
def majority (b c d : Word) : Word := (b &&& c) ||| (b &&& d) ||| (c &&& d)

/-- The mixing function `F(t, b, c, d)`, chosen by the quartile `t div 20` (R131). -/
def mixFn (t : Nat) (b c d : Word) : Word :=
  match t / 20 with
  | 0 => choose b c d
  | 1 => parity b c d
  | 2 => majority b c d
  | _ => parity b c d

/-- `KT(t) = K[t div 20]` (R132). -/
def roundConstant (t : Nat) : Word := Config.params.k.toList.getD (t / 20) 0

/-- The round function (R133): all five outputs are computed from the five inputs. -/
def roundFn (t : Nat) (r : Work) (w : Word) : Work where
  a := rotl r.a 5 + mixFn t r.b r.c r.d + r.e + roundConstant t + w
  b := r.a
  c := rotl r.b 30
  d := r.c
  e := r.d

/-- The working registers as they are latched from the hash state: `(a, b, c, d, e) := (H[0], .., H[4])` (R103, R140). -/
def workOfHash (h : Vector Word 5) : Work := ⟨h[0], h[1], h[2], h[3], h[4]⟩

/-- The five sums of the fold, each modulo 2^32, no carry from one register to the next (R139). -/
def foldSums (h : Vector Word 5) (r : Work) : Vector Word 5 :=
  #v[h[0] + r.a, h[1] + r.b, h[2] + r.c, h[3] + r.d, h[4] + r.e]

/-- Rounds `t`, `t + 1`, .. over the schedule words listed, one word a round (R134, R140). -/
def runRounds : Nat → Work → List Word → Work
  | _, r, [] => r
  | t, r, w :: ws => runRounds (t + 1) (roundFn t r w) ws

/-- `COMPRESS(H, M)`: one chunk folded into the hash state (R140). -/
def compress (h : Vector Word 5) (m : Vector Word 16) : Vector Word 5 :=
  foldSums h (runRounds 0 (workOfHash h) (schedule m))

/-- `H_N` of R141: `H_0 = IV`, `H_k = COMPRESS(H_(k-1), M_k)`, the chunks in order. -/
def hashChunks (ms : List (Vector Word 16)) : Vector Word 5 := ms.foldl compress Config.params.iv

end Sys2Proof.Machine
end

