-- ==== Sys2Proof/Machine/Operands.lean ====
section
/-! DEFINITION. Every operand form: the index of `LOADW` and of `RDDIG` (R50, R74), the indices the sequencer generates
(R120, R121, R134), the reads of elements that can hold no value (R14), and the bits of `phase` (R80). -/

namespace Sys2Proof.Machine

/-- The bits of `phase` (R80). -/
def Phase.bits : Phase → BitVec 2
  | .idle => 0b00
  | .expand => 0b01
  | .round => 0b10
  | .fold => 0b11

/-- The phase whose bits are `p` (R80). -/
def Phase.ofBits (p : BitVec 2) : Phase :=
  match p.toNat with
  | 0 => .idle
  | 1 => .expand
  | 2 => .round
  | _ => .fold

/-- The place of `LOADW idx` in the schedule store: `W[idx]`, all sixteen legal (R50, R102). -/
def bufferIndex (idx : BitVec 4) : Fin 80 := ⟨idx.toNat, by have := idx.isLt; omega⟩

/-- The register `RDDIG idx` reads: 0 to 4 legal, 5 to 15 none (R50, R56, R104). -/
def digestIndex (idx : BitVec 4) : Option (Fin 5) :=
  if h : idx.toNat < 5 then some ⟨idx.toNat, h⟩ else none

/-- The five word indices of one `EXPAND` (R120): the word written and the four read. -/
structure ExpandOperands where
  target : Fin 80
  back3 : Fin 80
  back8 : Fin 80
  back14 : Fin 80
  back16 : Fin 80
  deriving DecidableEq, Repr

/-- The word indices of `EXPAND` at `t`, defined for `16 <= t <= 79` (R121's precondition). -/
def expandOperands (t : BitVec 7) : Option ExpandOperands :=
  if h : 16 ≤ t.toNat ∧ t.toNat ≤ 79 then
    some
      { target := ⟨t.toNat, by omega⟩
        back3 := ⟨t.toNat - 3, by omega⟩
        back8 := ⟨t.toNat - 8, by omega⟩
        back14 := ⟨t.toNat - 14, by omega⟩
        back16 := ⟨t.toNat - 16, by omega⟩ }
  else none

/-- The schedule word of `ROUND` at `t`, defined for `0 <= t <= 79` (R134's precondition). -/
def roundIndex (t : BitVec 7) : Option (Fin 80) :=
  if h : t.toNat < 80 then some ⟨t.toNat, h⟩ else none

/-- What the element `H[i]` holds, if anything. -/
def State.heldHash (s : State) (i : Fin 5) : Option Word := s.H[i]

/-- What a working register holds, if anything. -/
def State.heldWork (s : State) : Config.WorkReg → Option Word
  | .a => s.a
  | .b => s.b
  | .c => s.c
  | .d => s.d
  | .e => s.e

/-- What the element `W[i]` holds, if anything. -/
def State.heldSched (s : State) (i : Fin 80) : Option Word := s.W[i]

/-- The bits read from an element: its value, or free bits where it holds none (R14; DESIGN CHOICE, log entry 3, safe). -/
def State.bitsOf (s : State) (el : Config.Elem) (held : Option Word) : Word :=
  held.getD (Config.freeWord s.draws el)

/-- A read of `H[i]` (R154). -/
def State.readHash (s : State) (i : Fin 5) : Word := s.bitsOf (.hash i) (s.heldHash i)

/-- A read of a working register (R134, R139). -/
def State.readWork (s : State) (r : Config.WorkReg) : Word := s.bitsOf (.work r) (s.heldWork r)

/-- A read of `W[i]` (R121, R134). -/
def State.readSched (s : State) (i : Fin 80) : Word := s.bitsOf (.sched i) (s.heldSched i)

/-- All five hash registers, read together (R154, R160). -/
def State.hash (s : State) : Vector Word 5 :=
  #v[s.readHash 0, s.readHash 1, s.readHash 2, s.readHash 3, s.readHash 4]

/-- Five values as they stand in the hash state registers, each held (R151, R152). -/
def heldFive (v : Vector Word 5) : Vector (Option Word) 5 :=
  #v[some v[0], some v[1], some v[2], some v[3], some v[4]]

/-- All five working registers, read together (R134, R139). -/
def State.work (s : State) : Work :=
  ⟨s.readWork .a, s.readWork .b, s.readWork .c, s.readWork .d, s.readWork .e⟩

end Sys2Proof.Machine
end

