-- ==== Sys2Proof/Machine/Ops.lean ====
section
/-! DEFINITION. The named operations over the state: the response (R76), the refusal of a command as the block's one
exception (R193), the write ports of the hash state register file (R151, R152), the writes of `LOADW` (R102), `START` (R103),
`EXPAND` (R121), `ROUND` (R134) and `FOLD` (R139), the sequencer's moves (R33), reset (R37, R220), and the beginning of an edge. -/

namespace Sys2Proof.Machine

/-- `respond(code, data)`: the response of this edge (R13, R76). -/
def State.respond (s : State) (code : RspCode) (data : Word) : State := { s with rsp := some ⟨code, data⟩ }

/-- The record a refusal leaves: `err <- 1` and `ecode <- code` if `err = 0`, else nothing (R193). -/
def State.recordError (s : State) (code : RspCode) : State :=
  { s with err := true, ecode := stickyCode s.err s.ecode code }

/-- `raise Refuse(code)` (R193): the one exception of the block, taken as a next state. The response carries the code and data
0, the error is recorded if it is the first, and nothing else is written: no handler, no vector, no mode (R193). -/
def refuse (code : RspCode) (s : State) : Host.Outcome State Fault Refusal :=
  .next ((s.recordError code).respond code 0)

/-- The clearing of the error record (R106, R198): all that stands in this block for a return from an exception. -/
def State.clearError (s : State) : State := { s with err := false, ecode := 0 }

/-- Write port 1 of the hash state register file, fired by an accepted `INIT`: `H <- IV` (R151), with the flags `INIT` writes:
`inited <- 1`, `dvalid <- 0` (R101). -/
def State.initHash (s : State) (iv : Vector Word 5) : State :=
  { s with H := heldFive iv, inited := true, dvalid := false }

/-- Write port 2 of the hash state register file, fired by `FOLD`: it stores the five sums it is given (R152). -/
def State.foldHash (s : State) (sums : Vector Word 5) : State := { s with H := heldFive sums }

/-- `W[idx] <- data`, `mvalid[idx] <- 1` (R102). -/
def State.loadWord (s : State) (idx : BitVec 4) (data : Word) : State :=
  { s with W := s.W.set (bufferIndex idx) (some data), mvalid := markLoaded s.mvalid idx }

/-- The sequencer moves: `phase <- p`, `t <- n` (R13, R33). -/
def State.moveTo (s : State) (p : Phase) (n : BitVec 7) : State := { s with phase := p, t := n }

/-- `(a, b, c, d, e) <- (H[0], .., H[4])`, `dvalid <- 0` (R103). A register takes what the element holds: no value is made up
where it holds none. -/
def State.latch (s : State) : State :=
  { s with
    a := s.heldHash 0, b := s.heldHash 1, c := s.heldHash 2, d := s.heldHash 3, e := s.heldHash 4
    dvalid := false }

/-- `W[i] <- v` (R121). -/
def State.writeSched (s : State) (i : Fin 80) (v : Word) : State := { s with W := s.W.set i (some v) }

/-- `(a, b, c, d, e) <- r`, all five at once (R134). -/
def State.writeWork (s : State) (r : Work) : State :=
  { s with a := some r.a, b := some r.b, c := some r.c, d := some r.d, e := some r.e }

/-- `(a, b, c, d, e) <- undef`, `W[0..79] <- undef`, `mvalid <- 0` (R139, R23, R125). -/
def State.discardChunk (s : State) : State :=
  { s with
    a := none, b := none, c := none, d := none, e := none
    W := Vector.replicate 80 none
    mvalid := 0 }

/-- `dvalid <- 1`, `phase <- IDLE`; `t` is not written (R139). -/
def State.endChunk (s : State) : State := { s with dvalid := true, phase := .idle }

/-- The state after an edge with `rst = 1`: every element of R20 at its value of R37 and no response, whatever the state before
(R220). What the host presents next and the draw number are not the block's and go on. -/
def State.toReset (s : State) : State := { State.reset with inputs := s.inputs, draws := s.draws }

/-- What the host presents at the coming edge: the head of `inputs`, or nothing where none is listed (log entry 1). -/
def State.input (s : State) : Input := s.inputs.headD ⟨false, none⟩

/-- An edge begins: its input is taken off the list, there is no response yet (`rsp_valid = 0` after an edge at which no command
was taken, R70), and the draw number advances (log entry 4). No element of R20 changes. -/
def State.beginEdge (s : State) : State :=
  { s with inputs := s.inputs.tail, rsp := none, draws := s.draws + 1 }

end Sys2Proof.Machine
end

