-- ==== Sys2Proof/Machine/Commands.lean ====
section
/-! DEFINITION. The meanings of the nine CMD40 rows: the seven host commands (R100 to R106) and the two rows of the reserved
space (R107). The checks of each stand in the order of R196. A refused command is a next state (R193). -/

namespace Sys2Proof.Machine

/-- `NOP` (R100): answered, never refused. -/
def execNop (s : State) : Host.Outcome State Fault Refusal := .next (s.respond .ok 0)

/-- `INIT` (R101). -/
def execInit (s : State) : Host.Outcome State Fault Refusal :=
  if s.phase ≠ .idle then refuse .errBusy s
  else .next ((s.initHash Config.params.iv).respond .ok 0)

/-- `LOADW idx, data` (R102). -/
def execLoadw (idx : BitVec 4) (data : Word) (s : State) : Host.Outcome State Fault Refusal :=
  if s.phase ≠ .idle then refuse .errBusy s
  else .next ((s.loadWord idx data).respond .ok 0)

/-- `START` (R103). -/
def execStart (s : State) : Host.Outcome State Fault Refusal :=
  if s.phase ≠ .idle then refuse .errBusy s
  else if s.inited = false then refuse .errNoinit s
  else if chunkLoaded s.mvalid = false then refuse .errIncomplete s
  else .next ((s.latch.moveTo .expand 16).respond .ok 0)

/-- `RDDIG idx` (R104): the index is checked first, whatever the state. -/
def execRddig (idx : BitVec 4) (s : State) : Host.Outcome State Fault Refusal :=
  match digestIndex idx with
  | none => refuse .errIndex s
  | some i =>
    if s.phase ≠ .idle then refuse .errBusy s
    else if s.inited = false then refuse .errNoinit s
    else .next (s.respond .ok (s.readHash i))

/-- `RDSTAT` (R105): the status word of the state before the edge. -/
def execRdstat (s : State) : Host.Outcome State Fault Refusal := .next (s.respond .ok s.status)

/-- `CLRERR` (R106). -/
def execClrerr (s : State) : Host.Outcome State Fault Refusal := .next (s.clearError.respond .ok 0)

/-- `op` 7 (R107): refused in every state. -/
def execReserved7 (s : State) : Host.Outcome State Fault Refusal := refuse .errIllegal s

/-- `op` 8 to 15 (R107): refused in every state, whichever of the eight codes it is; the refusal does not record it (R191). -/
def execReserved8to15 (_op : BitVec 4) (s : State) : Host.Outcome State Fault Refusal := refuse .errIllegal s

end Sys2Proof.Machine
end

