-- ==== Sys2Proof/Machine/Engine.lean ====
section
/-! DEFINITION. The meanings of the three PHASE2 rows: the micro-operations `EXPAND` (R121), `ROUND` (R134), `FOLD` (R139). None
can be refused (R190); none writes the response or the error record (R41). -/

namespace Sys2Proof.Machine

/-- `EXPAND` (R121): one schedule word, then the next index or round 0. Outside `16 <= t <= 79` it stops (U1, log entry 5). -/
def execExpand (s : State) : Host.Outcome State Fault Refusal :=
  match expandOperands s.t with
  | none => .fault .sequencerOutOfRange
  | some o =>
    let s' := s.writeSched o.target
      (expandFn (s.readSched o.back3) (s.readSched o.back8) (s.readSched o.back14) (s.readSched o.back16))
    .next (if s.t = 79 then s'.moveTo .round 0 else s'.moveTo s.phase (s.t + 1))

/-- `ROUND` (R134): one compression round, then the next round or the fold. With `t > 79` it stops (U1, log entry 5). -/
def execRound (s : State) : Host.Outcome State Fault Refusal :=
  match roundIndex s.t with
  | none => .fault .sequencerOutOfRange
  | some i =>
    let s' := s.writeWork (roundFn s.t.toNat s.work (s.readSched i))
    .next (if s.t = 79 then s'.moveTo .fold 0 else s'.moveTo s.phase (s.t + 1))

/-- `FOLD` (R139): the working registers are added into the hash state and the chunk is finished. -/
def execFold (s : State) : Host.Outcome State Fault Refusal :=
  .next ((s.foldHash (foldSums s.hash s.work)).discardChunk.endChunk)

end Sys2Proof.Machine
end

