-- ==== Sys2Proof/Machine/Dispatch.lean ====
section
/-! DEFINITION. The meaning of every instruction, one arm per constructor. -/

namespace Sys2Proof.Machine

def exec (i : Instr) (s : State) : Host.Outcome State Fault Refusal :=
  match i with
  | .nop => Sys2Proof.Machine.execNop s
  | .init => Sys2Proof.Machine.execInit s
  | .loadw idx data => Sys2Proof.Machine.execLoadw idx data s
  | .start => Sys2Proof.Machine.execStart s
  | .rddig idx => Sys2Proof.Machine.execRddig idx s
  | .rdstat => Sys2Proof.Machine.execRdstat s
  | .clrerr => Sys2Proof.Machine.execClrerr s
  | .reserved7 => Sys2Proof.Machine.execReserved7 s
  | .reserved8to15 op => Sys2Proof.Machine.execReserved8to15 op s
  | .expand => Sys2Proof.Machine.execExpand s
  | .round => Sys2Proof.Machine.execRound s
  | .fold => Sys2Proof.Machine.execFold s

end Sys2Proof.Machine
end

