-- ==== Sys2Proof/Machine/Edge.lean ====
section
/-! DEFINITION. One rising edge of the clock (R40): reset, or the command and the engine's micro-operation of that edge; and the
placing of one instruction where the next edge takes it from. -/

namespace Sys2Proof.Machine

/-- The command of this edge, if any, is decoded and judged (R40 item 1, R71). -/
def takeCommand (cmd : Option CmdWord) (s : State) : Host.Outcome State Fault Refusal :=
  match cmd with
  | none => .next s
  | some w => exec (decodeCmd w) s

/-- The micro-operation that phase `p` selects, if any (R40 item 2, R80). -/
def engine (p : Phase) (s : State) : Host.Outcome State Fault Refusal :=
  match decodePhase p.bits with
  | .error _ => .next s
  | .ok i => exec i s

/-- One edge (R40). The micro-operation is that of the phase BEFORE the edge. It is run on the state the command leaves: by R41
the two write disjoint elements, and while a micro-operation is due no command writes anything it reads, so this is the
simultaneous commit of R40 (DEDUCED, log entry 9, safe).

In a state outside R42's set by a clause on the flags (busy with `inited = 0` or `mvalid` not 0xFFFF, `dvalid` without `inited` or
while busy, `err` and `ecode` at odds) the spec specifies no behaviour (U1, `stuck`); no run from a reset gets there. The model
goes on by the rules, which do not look at these clauses. DESIGN CHOICE (log entry 19). unsafe -/
def edge (s : State) : Host.Outcome State Fault Refusal :=
  let s0 := s.beginEdge
  if s.input.rst then .next s0.toReset
  else
    match takeCommand s.input.cmd s0 with
    | .next s1 => engine s.phase s1
    | .fault f => .fault f
    | .refused r => .refused r

/-- The value of `t` with which a phase is entered (R33). -/
def entryIndex : Phase → BitVec 7
  | .idle => 0
  | .expand => 16
  | .round => 0
  | .fold => 0

/-- The state in which the next edge runs this code and nothing before it: a command word is what the host presents at the coming
edge; the bits of a phase are put into the sequencer, with the index that phase is entered with, and the host presents
nothing (log entry 11). -/
def place (c : Code) (s : State) : State :=
  match c with
  | .cmd w => { s with inputs := ⟨false, some w⟩ :: s.inputs }
  | .phase p =>
    { s with
      phase := Phase.ofBits p
      t := entryIndex (Phase.ofBits p)
      inputs := ⟨false, none⟩ :: s.inputs }

/-- `place` of the code numbered as spec/opcode_table.json numbers it; a number that is no code places nothing. -/
def placeTableWord (nbits w : Nat) (s : State) : State :=
  match codeOfTableWord nbits w with
  | none => s
  | some c => place c s

end Sys2Proof.Machine
end

