-- ==== Sys2Proof/Machine/Step.lean ====
section
/-! DEFINITION. The step: one rising edge of `clk` (R15, R40). -/

namespace Sys2Proof.Machine

/-- One step is one rising edge (R15); what the host supplies at it is the head of the state's `inputs` (log entry 1). -/
def step (s : State) : Host.Outcome State Fault Refusal := edge s

/-- The state in which the very next step runs the instruction whose bits are `w`, numbered as the opcode table numbers them. -/
def State.withFetchWord (s : State) (nbits w : Nat) : State := placeTableWord nbits w s

end Sys2Proof.Machine
end

