-- ==== Sys2Proof/Machine/Ports.lean ====
section
/-! DEFINITION. The output ports (R70): functions of the state after the latest edge, and the unit `digest_assembler` (R160, R161). -/

namespace Sys2Proof.Machine

/-- The digest assembler: `H[0] ‖ H[1] ‖ H[2] ‖ H[3] ‖ H[4]`, register 0 in the top 32 bits; wiring only (R160). -/
def assembleDigest (h : Vector Word 5) : BitVec 160 := h[0] ++ h[1] ++ h[2] ++ h[3] ++ h[4]

/-- Port `digest` (R160). It is wired unconditionally: an element that holds no value shows free bits (R163, U4; log entry 3). -/
def State.digestPort (s : State) : BitVec 160 := assembleDigest s.hash

/-- Port `digest_valid` (R161). -/
def State.digestValidPort (s : State) : Bool := s.dvalid

/-- Port `ready` (R70). -/
def State.readyPort (s : State) : Bool := s.ready

/-- Port `err` (R70). -/
def State.errPort (s : State) : Bool := s.err

/-- Port `cmd_ready`: constant 1 (R71). -/
def State.cmdReadyPort (_s : State) : Bool := true

/-- Port `rsp_valid`: 1 after an edge at which a command was taken (R70). -/
def State.rspValidPort (s : State) : Bool := s.rsp.isSome

/-- Port `rsp_code`; any value while `rsp_valid = 0` (R76, U5; log entry 16). -/
def State.rspCodePort (s : State) : BitVec 3 :=
  match s.rsp with
  | some r => r.code.bits
  | none => Config.freeRspCode s.draws

/-- Port `rsp_data`; any value while `rsp_valid = 0` (R76, U5; log entry 16). -/
def State.rspDataPort (s : State) : Word :=
  match s.rsp with
  | some r => r.data
  | none => Config.freeRspData s.draws

end Sys2Proof.Machine
end

