-- ==== Sys2Proof/Machine/Padder.lean ====
section
/-! DEFINITION. The Padder/Chunker and the host's contract (R170 to R184): the host's side of the interface, as pure functions
beside the machine. Nothing here is performed by the block (R5). A message is a list of bytes (R170). -/

namespace Sys2Proof.Machine

/-- The host's one error (R176). (`EncodingError` occurs before there is a message and is outside the spec, R178.) -/
inductive HostError where
  | lengthOverflow
  deriving DecidableEq, Repr

/-- The bit length `8L` of a message (R171). -/
def bitLength (m : List Byte) : Nat := 8 * m.length

/-- `z`: the zero bytes after the byte 0x80, `(55 - L) mod 64` (R171). -/
def zeroBytes (len : Nat) : Nat := (119 - len % 64) % 64

/-- `k`: the `0` bits after the appended `1` bit, `(447 - 8L) mod 512` (R171). -/
def zeroBits (len : Nat) : Nat := (959 - 8 * len % 512) % 512

/-- `N`: the number of chunks (R172). -/
def numChunks (len : Nat) : Nat := (len + 8) / 64 + 1

/-- A number as `n` bytes, most significant first (R52, R171). -/
def bigEndian : Nat → Nat → List Byte
  | 0, _ => []
  | n + 1, v => BitVec.ofNat 8 (v / 256 ^ n) :: bigEndian n v

/-- The padded stream `P` (R171): the message, the byte 0x80, `z` zero bytes, the bit length as a 64-bit big-endian number. -/
def paddedStream (m : List Byte) : List Byte :=
  m ++ [0x80] ++ List.replicate (zeroBytes m.length) 0 ++ bigEndian 8 (bitLength m)

/-- `MemRead(addr, n)`: `n` bytes of the padded stream at offset `addr`, as one big-endian number (R13). -/
def memRead (p : List Byte) (addr n : Nat) : Nat :=
  ((p.drop addr).take n).foldl (fun acc b => acc * 256 + b.toNat) 0

/-- Word `i` of chunk `j`, chunks counted from 0 here: `M[i] = MemRead(64 j + 4 i, 4)` (R174, R51). -/
def chunkWord (p : List Byte) (j i : Nat) : Word := BitVec.ofNat 32 (memRead p (64 * j + 4 * i) 4)

/-- Chunk `j`: its sixteen words (R174). -/
def chunkOf (p : List Byte) (j : Nat) : Vector Word 16 :=
  let w := chunkWord p j
  #v[w 0, w 1, w 2, w 3, w 4, w 5, w 6, w 7, w 8, w 9, w 10, w 11, w 12, w 13, w 14, w 15]

/-- The chunks of a message, in order (R174). -/
def chunksOf (m : List Byte) : List (Vector Word 16) :=
  (List.range (numChunks m.length)).map (chunkOf (paddedStream m))

/-- The Padder/Chunker: a message of 2^64 bits or more is rejected (R176), any other gives its chunks (R170). -/
def padMessage (m : List Byte) : Except HostError (List (Vector Word 16)) :=
  if 2 ^ 64 ≤ bitLength m then .error .lengthOverflow else .ok (chunksOf m)

/-- What `compute_digest` is to return (R141, R180): the digest of the chained compression of the message's chunks. -/
def digestOfMessage (m : List Byte) : Except HostError (BitVec 160) :=
  match padMessage m with
  | .error x => .error x
  | .ok ms => .ok (assembleDigest (hashChunks ms))

end Sys2Proof.Machine
end

