-- ==== Sys2Proof/Machine/Assembler.lean ====
section
/-! DEFINITION. The assembler's lines (R83), the pseudo-instructions (R84), the host that presents them to the block and reads its
responses, and the driver `compute_digest` (R110, R180). -/

namespace Sys2Proof.Machine

/-- One line of a program: a command, a raw word, or a pseudo-instruction (R83, R84). -/
inductive AsmLine where
  /-- A command of the table; the three micro-operations have no line (R80, R83). -/
  | command (i : Instr)
  /-- `.word <40-bit number>` (R83). -/
  | word (w : CmdWord)
  /-- `LOADBLK w0, .., w15` (R84). -/
  | loadblk (m : Vector Word 16)
  /-- `NOPS n` (R84). -/
  | nops (n : Nat)
  /-- `WAIT`, directly after an accepted `START` (R84). -/
  | wait
  /-- `HASHBLK w0, .., w15` (R84). -/
  | hashblk (m : Vector Word 16)
  /-- `RDDIGEST` (R84). -/
  | rddigest
  deriving DecidableEq, Repr

/-- The command words of an instruction: one, or none for a micro-operation (R80, R83). -/
def commandWords (i : Instr) : List CmdWord :=
  match encode i with
  | .cmd w => [w]
  | .phase _ => []

/-- `LOADBLK`: sixteen `LOADW`, in index order (R84). -/
def loadblkWords (m : Vector Word 16) : List CmdWord :=
  (List.finRange 16).flatMap fun i => commandWords (.loadw (BitVec.ofNat 4 i.val) m[i])

/-- `NOPS n`: `NOP` repeated (R84). -/
def nopsWords (n : Nat) : List CmdWord := (List.replicate n Instr.nop).flatMap commandWords

/-- `RDDIGEST`: `RDDIG 0` to `RDDIG 4` (R84). -/
def rddigestWords : List CmdWord :=
  (List.range 5).flatMap fun i => commandWords (.rddig (BitVec.ofNat 4 i))

/-- The command words of a line, in the order of edges, where their number is fixed (R83, R84): none for `WAIT`, which is "not a
fixed number of words", and for `HASHBLK`, which ends in one. -/
def AsmLine.words : AsmLine → Option (List CmdWord)
  | .command i => some (commandWords i)
  | .word w => some [w]
  | .loadblk m => some (loadblkWords m)
  | .nops n => some (nopsWords n)
  | .wait => none
  | .hashblk _ => none
  | .rddigest => some rddigestWords

/-- A host at work with the block: the block's state, and the responses the host has had, oldest first (R180). -/
structure Session where
  block : State
  responses : List Response
  deriving DecidableEq, Repr

/-- What a session goes on to, unless the block has stopped. -/
abbrev SessionOutcome := Host.Outcome Session Fault Refusal

/-- One action of the host after another. -/
def sessionThen (o : SessionOutcome) (f : Session → SessionOutcome) : SessionOutcome :=
  match o with
  | .next x => f x
  | .fault r => .fault r
  | .refused r => .refused r

/-- One edge at which the host presents one word, without `rst`, and notes the response (R40, R76). What the state's `inputs` list
is presented at later edges, as it stands. -/
def present (w : CmdWord) (x : Session) : SessionOutcome :=
  match step (place (.cmd w) x.block) with
  | .next s => .next ⟨s, x.responses ++ s.rsp.toList⟩
  | .fault r => .fault r
  | .refused r => .refused r

/-- A list of words, one an edge. -/
def presentAll : List CmdWord → Session → SessionOutcome
  | [], x => .next x
  | w :: ws, x => sessionThen (present w x) (presentAll ws)

/-- `rsp_data[0] = 1` in the response of the latest edge (R84, R78). -/
def Session.saysReady (x : Session) : Bool :=
  match x.block.rsp with
  | some r => r.data.getLsbD 0
  | none => false

/-- `RDSTAT` until a response says ready, at most `n` of them. -/
def poll : Nat → Session → SessionOutcome
  | 0, x => .next x
  | n + 1, x =>
    sessionThen (presentAll (commandWords .rdstat) x) fun y => if y.saysReady then .next y else poll n y

/-- `WAIT`: repeat `RDSTAT` until a response has `rsp_data[0] = 1` (R84): one when the core is idle, 146 directly after an accepted
`START`. The loop is written with a bound, `T_BUSY + 1` polls, which no state needs more of (R204; DEDUCED, log entry 15,
safe). -/
def runWait (x : Session) : SessionOutcome := poll (Config.tBusy + 1) x

/-- The host carries out a line (R83, R84). -/
def AsmLine.run : AsmLine → Session → SessionOutcome
  | .command i, x => presentAll (commandWords i) x
  | .word w, x => presentAll [w] x
  | .loadblk m, x => presentAll (loadblkWords m) x
  | .nops n, x => presentAll (nopsWords n) x
  | .wait, x => runWait x
  | .hashblk m, x => sessionThen (presentAll (loadblkWords m ++ commandWords .start) x) runWait
  | .rddigest, x => presentAll rddigestWords x

/-- The host carries out a program's lines, in order (R83). It presents every line whatever the responses to the earlier ones. For a
driver the spec says only what to "expect" (R180) and leaves open whether it stops at another response: that it goes on is a
DESIGN CHOICE (log entry 20). unsafe -/
def runLines : List AsmLine → Session → SessionOutcome
  | [], x => .next x
  | l :: ls, x => sessionThen (l.run x) (runLines ls)

/-- The digest `RDDIGEST` reads: the `rsp_data` of the five latest responses concatenated, the first most significant (R84). None
where one of the five is a refusal: it carries no word of the digest (R193). -/
def rddigestValue (rs : List Response) : Option (BitVec 160) :=
  match rs.drop (rs.length - 5) with
  | [⟨.ok, d0⟩, ⟨.ok, d1⟩, ⟨.ok, d2⟩, ⟨.ok, d3⟩, ⟨.ok, d4⟩] => some (d0 ++ d1 ++ d2 ++ d3 ++ d4)
  | _ => none

/-- Every command was performed: no response is a refusal (R191). -/
def noRefusal (rs : List Response) : Bool := rs.all fun r => r.code == .ok

/-- The digest a caller may use: the one `RDDIGEST` read, and none after any refusal, when "the digest must not be used" (R184). -/
def usableDigest (rs : List Response) : Option (BitVec 160) := if noRefusal rs then rddigestValue rs else none

/-- The driver's lines for a message: `INIT`, each chunk in order, the five reads (R110, R180). -/
def driverLines (m : List Byte) : Except HostError (List AsmLine) :=
  match padMessage m with
  | .error x => .error x
  | .ok ms => .ok ([AsmLine.command .init] ++ ms.map AsmLine.hashblk ++ [AsmLine.rddigest])

/-- A finished run of `compute_digest`: the session, whose responses say every refusal, and what is returned to the caller. -/
structure DriverRun where
  session : Session
  digest : Option (BitVec 160)
  deriving DecidableEq, Repr

/-- `compute_digest` (R180): a message that is too long is rejected before any command (R176); any other has the driver's lines
carried out on the block, to the last also after a refusal (log entry 20), and what is returned is the digest that may be used
(R184). -/
def computeDigest (m : List Byte) (s : State) : Except HostError (Host.Outcome DriverRun Fault Refusal) :=
  match driverLines m with
  | .error x => .error x
  | .ok ls =>
    match runLines ls ⟨s, []⟩ with
    | .next x => .ok (.next ⟨x, usableDigest x.responses⟩)
    | .fault f => .ok (.fault f)
    | .refused r => .ok (.refused r)

/-- A hexadecimal digit (R10). -/
def hexDigit (v : BitVec 4) : Char := "0123456789ABCDEF".toList.getD v.toNat '0'

/-- The lowest `n` hexadecimal digits of a number, most significant first (R10, R72). -/
def hexDigits : Nat → Nat → List Char
  | 0, _ => []
  | n + 1, v => hexDigit (BitVec.ofNat 4 (v / 16 ^ n)) :: hexDigits n v

/-- A number of `n` hexadecimal digits as it is written: `0x...` (R10). -/
def hexText (n v : Nat) : String := "0x" ++ String.ofList (hexDigits n v)

/-- The text of a command (R83): capitals, operands separated by a comma. A reserved word is written as `.word`; a
micro-operation has no text. -/
def instrText : Instr → String
  | .nop => "NOP"
  | .init => "INIT"
  | .loadw idx data => "LOADW " ++ toString idx.toNat ++ ", " ++ hexText 8 data.toNat
  | .start => "START"
  | .rddig idx => "RDDIG " ++ toString idx.toNat
  | .rdstat => "RDSTAT"
  | .clrerr => "CLRERR"
  | .reserved7 => ".word " ++ hexText 10 (cmdOf 7 0 0).toNat
  | .reserved8to15 op => ".word " ++ hexText 10 (cmdOf op 0 0).toNat
  | .expand => ""
  | .round => ""
  | .fold => ""

/-- The text of the sixteen operands of a block, separated by commas (R84). -/
def blockText (m : Vector Word 16) : String :=
  ", ".intercalate (m.toList.map fun w => hexText 8 w.toNat)

/-- The text of a line (R83, R84). -/
def AsmLine.text : AsmLine → String
  | .command i => instrText i
  | .word w => ".word " ++ hexText 10 w.toNat
  | .loadblk m => "LOADBLK " ++ blockText m
  | .nops n => "NOPS " ++ toString n
  | .wait => "WAIT"
  | .hashblk m => "HASHBLK " ++ blockText m
  | .rddigest => "RDDIGEST"

end Sys2Proof.Machine
end

