-- ==== Sys2Proof/Safety.lean ====
section
/-! DEFINITION. What the claims are stated in: the invariant of the states a run from a reset can reach (R42, R43), what a state
presents and accepts at its next edge, how many edges a busy engine still takes (R33, R236), and the tests a command passes
or fails (R196). -/

namespace Sys2Proof.Machine

/-- `(phase, t)` is one of `(IDLE, 0)`, `(EXPAND, 16..79)`, `(ROUND, 0..79)`, `(FOLD, 0)` (R42). -/
def sequencerLegal (p : Phase) (t : BitVec 7) : Bool :=
  match p with
  | .idle => t == 0
  | .expand => decide (16 ≤ t.toNat) && decide (t.toNat ≤ 79)
  | .round => decide (t.toNat ≤ 79)
  | .fold => t == 0

/-- `W[i]` holds a value: below 16 when it has been loaded (R25), from 16 on when an `EXPAND` of the chunk in flight has written
it (R43). -/
def schedExpected (s : State) (i : Fin 80) : Bool :=
  if i.val < 16 then s.mvalid.getLsbD i.val
  else
    match s.phase with
    | .idle => false
    | .expand => decide (i.val < s.t.toNat)
    | .round => true
    | .fold => true

/-- The sequencer is at a legal position (R42). -/
abbrev State.SequencerOk (s : State) : Prop := sequencerLegal s.phase s.t = true

/-- `ecode = 0` exactly when `err = 0`, and `ecode` is 1 to 5 otherwise (R42). -/
abbrev State.ErrorOk (s : State) : Prop := (s.err = false ↔ s.ecode = 0) ∧ s.ecode.toNat ≤ 5

/-- `dvalid = 1` implies `inited = 1` and `phase = IDLE`; `phase != IDLE` implies `inited = 1` and `mvalid = 0xFFFF` (R42). -/
abbrev State.FlagsOk (s : State) : Prop :=
  (s.dvalid = true → s.inited = true ∧ s.phase = .idle) ∧
  (s.phase ≠ .idle → s.inited = true ∧ s.mvalid = 0xFFFF)

/-- Which elements hold a value: `H` exactly when `inited` (R28), the working registers exactly while a chunk is in flight (R22),
the schedule words as `schedExpected` says (R25, R43). -/
abbrev State.HeldOk (s : State) : Prop :=
  (∀ i : Fin 5, s.H[i].isSome = s.inited) ∧
  (s.a.isSome = !s.ready ∧ s.b.isSome = !s.ready ∧ s.c.isSome = !s.ready ∧ s.d.isSome = !s.ready
    ∧ s.e.isSome = !s.ready) ∧
  (∀ i : Fin 80, s.W[i].isSome = schedExpected s i)

/-- The invariant of every state that a sequence of edges beginning with a reset can reach (R42, R43). -/
abbrev State.Inv (s : State) : Prop := s.SequencerOk ∧ s.ErrorOk ∧ s.FlagsOk ∧ s.HeldOk

/-- Every element of R20, the status word and the outputs at the values R37 gives; of the port `digest` R37 says "any value". -/
abbrev State.AtReset (s : State) : Prop :=
  s.phase = .idle ∧ s.t = 0 ∧ s.mvalid = 0 ∧ s.inited = false ∧ s.dvalid = false ∧ s.err = false ∧ s.ecode = 0 ∧
  (∀ i : Fin 5, s.H[i] = none) ∧
  (s.a = none ∧ s.b = none ∧ s.c = none ∧ s.d = none ∧ s.e = none) ∧
  (∀ i : Fin 80, s.W[i] = none) ∧
  s.status = 0x00000001 ∧
  (s.readyPort = true ∧ s.digestValidPort = false ∧ s.errPort = false ∧ s.rspValidPort = false)

/-- No `rst` at the next `n` edges (R140, R204). -/
def State.NoResetFor (s : State) (n : Nat) : Prop :=
  ∀ k inp, k < n → s.inputs[k]? = some inp → inp.rst = false

/-- At the next edge there is no `rst` and the host presents a word that decodes to `i`. -/
def State.Presents (s : State) (i : Instr) : Prop :=
  s.input.rst = false ∧ ∃ w, s.input.cmd = some w ∧ decodeCmd w = i

/-- The next edge accepts an `INIT` (R101). -/
def State.AcceptsInit (s : State) : Prop := s.Presents .init ∧ s.phase = .idle

/-- The next edge accepts a `LOADW` of word `idx` with this data (R102). -/
def State.AcceptsLoadw (s : State) (idx : BitVec 4) (data : Word) : Prop :=
  s.Presents (.loadw idx data) ∧ s.phase = .idle

/-- The next edge accepts a `START` (R103). -/
def State.AcceptsStart (s : State) : Prop :=
  s.Presents .start ∧ s.phase = .idle ∧ s.inited = true ∧ s.mvalid = 0xFFFF

/-- The next edge refuses the command it is presented: the response it leaves has a non-zero code (R191). -/
def Response.Refused (r : Option Response) : Prop := ∃ x, r = some x ∧ x.code ≠ .ok

/-- How many edges without `rst` a state is from ready (R33). -/
def edgesToReady (s : State) : Nat :=
  match s.phase with
  | .idle => 0
  | .expand => (80 - s.t.toNat) + Config.params.tRound + Config.params.tFold
  | .round => (80 - s.t.toNat) + Config.params.tFold
  | .fold => Config.params.tFold

/-- Where the sequencer stands `k` edges after the one that accepted `START`, for `k` up to `T_BUSY` (R236). -/
def positionAfterStart (k : Nat) : Phase × Nat :=
  if k < 64 then (.expand, 16 + k) else if k < 144 then (.round, k - 64) else if k = 144 then (.fold, 0) else (.idle, 0)

/-- What the engine computes on: `H`, `a..e`, `W`, `mvalid`, the sequencer, `inited`, `dvalid` are the same in both states (all of
R20 but `err` and `ecode`). -/
def SameDatapath (s u : State) : Prop :=
  s.H = u.H ∧ s.a = u.a ∧ s.b = u.b ∧ s.c = u.c ∧ s.d = u.d ∧ s.e = u.e ∧ s.W = u.W ∧ s.mvalid = u.mvalid ∧
  s.phase = u.phase ∧ s.t = u.t ∧ s.inited = u.inited ∧ s.dvalid = u.dvalid

/-- `op` is 7 to 15 (R196 item 1). -/
def illegalOp : Instr → Bool
  | .reserved7 | .reserved8to15 _ => true
  | .nop | .init | .loadw _ _ | .start | .rddig _ | .rdstat | .clrerr | .expand | .round | .fold => false

/-- `RDDIG` with `idx` 5 to 15 (R196 item 2). -/
def badIndex : Instr → Bool
  | .rddig idx => decide (5 ≤ idx.toNat)
  | .nop | .init | .loadw _ _ | .start | .rdstat | .clrerr | .reserved7 | .reserved8to15 _ | .expand | .round | .fold => false

/-- `INIT`, `LOADW`, `START`, `RDDIG`: refused while a chunk is in flight (R196 item 3). -/
def needsReady : Instr → Bool
  | .init | .loadw _ _ | .start | .rddig _ => true
  | .nop | .rdstat | .clrerr | .reserved7 | .reserved8to15 _ | .expand | .round | .fold => false

/-- `START`, `RDDIG`: refused while `inited = 0` (R196 item 4). -/
def needsHash : Instr → Bool
  | .start | .rddig _ => true
  | .nop | .init | .loadw _ _ | .rdstat | .clrerr | .reserved7 | .reserved8to15 _ | .expand | .round | .fold => false

/-- `START`: refused while the chunk is not fully loaded (R196 item 5). -/
def needsChunk : Instr → Bool
  | .start => true
  | .nop | .init | .loadw _ _ | .rddig _ | .rdstat | .clrerr | .reserved7 | .reserved8to15 _ | .expand | .round | .fold => false

/-- The code reported for a command: the first cause that applies in the order of R196, `OK` if none does. -/
def firstCause (i : Instr) (s : State) : RspCode :=
  if illegalOp i then .errIllegal
  else if badIndex i then .errIndex
  else if needsReady i ∧ s.phase ≠ .idle then .errBusy
  else if needsHash i ∧ s.inited = false then .errNoinit
  else if needsChunk i ∧ s.mvalid ≠ 0xFFFF then .errIncomplete
  else .ok

end Sys2Proof.Machine
end

