-- ==== Sys2Proof/Certificates/Slice0/Obligations.lean ====
section
/-! DEFINITION. The statements for the provers. Each says in its docstring which rule of spec/ it formalises. -/

open Sys2Proof Sys2Proof.Machine

/-! ### Reset -/

/-- R37: every element, the status word and the outputs of the state after reset. -/
def Obligations.ResetStateHoldsTheStatedValues : Prop := State.reset.AtReset

/-- R220: at an edge with `rst = 1` the next state is the reset state, whatever the state before and whatever is on the command
port; the command is not taken and there is no response. -/
def Obligations.ResetOverridesEverything : Prop :=
  ∀ s : State, s.input.rst = true →
    ∃ s', step s = .next s' ∧ s'.AtReset ∧ s'.rsp = none

/-! ### The invariant -/

/-- The invariant (R42, R43) holds in the state after reset. -/
def Obligations.InvariantHoldsAtReset : Prop := State.reset.Inv

/-- Every step keeps the invariant, from every state that meets it and whatever the host presents (R42, R43). -/
def Obligations.InvariantKeptByEveryStep : Prop :=
  ∀ s s' : State, s.Inv → step s = .next s' → s'.Inv

/-- From every state that meets the invariant a step gives a next state: no fault and no refusal of the model ends a run (R204,
"The block is never stuck and never hangs"). -/
def Obligations.NoStepStopsUnderTheInvariant : Prop :=
  ∀ s : State, s.Inv → ∃ s', step s = .next s'

/-- R42: after any number of edges from reset, whatever the host presents at them, the run has not stopped and the clauses of R42
hold. -/
def Obligations.ReachableStatesAreTheStatedSet : Prop :=
  ∀ (ins : List Input) (n : Nat), ∃ s : State, core.run n { State.reset with inputs := ins } = .next s ∧
    ((s.phase = .idle ∧ s.t = 0) ∨ (s.phase = .expand ∧ 16 ≤ s.t.toNat ∧ s.t.toNat ≤ 79) ∨
      (s.phase = .round ∧ s.t.toNat ≤ 79) ∨ (s.phase = .fold ∧ s.t = 0)) ∧
    (s.ecode = 0 ↔ s.err = false) ∧ (s.err = true → 1 ≤ s.ecode.toNat ∧ s.ecode.toNat ≤ 5) ∧
    (s.dvalid = true → s.inited = true ∧ s.phase = .idle) ∧
    (s.phase ≠ .idle → s.inited = true ∧ s.mvalid = 0xFFFF)

/-- Under the invariant no step draws a free value in place of an element that holds none, and a `START` that is performed copies
five values (R43). THE MODEL'S CHOICE is how this is said: what such an element would show is drawn at the state's draw number
(log entries 3, 4), so a step that reads none answers the same next state at every draw number; and so does the port `digest`
while `inited = 1`. The copy of `START` draws nothing, so the last clause says of it that all five registers hold a value. -/
def Obligations.NoRuleReadsAnElementWithoutAValue : Prop :=
  ∀ (s : State) (d : Nat), s.Inv →
    (∃ s', step s = .next s' ∧ step { s with draws := d } = .next { s' with draws := d + 1 }) ∧
    (s.inited = true → ({ s with draws := d } : State).digestPort = s.digestPort) ∧
    (∀ (s' : State) (r : Response), exec .start s = .next s' → s'.rsp = some r → r.code = .ok →
      ∀ i : Fin 5, ∃ v, s.H[i] = some v)

/-! ### Runs of the engine -/

/-- From any busy state that meets the invariant, with no `rst`, the core is idle after at most `T_BUSY = 145` edges, whatever
the host presents (R204). -/
def Obligations.BusyEndsWithinTBusy : Prop :=
  ∀ s : State, s.Inv → s.NoResetFor (edgesToReady s) →
    edgesToReady s ≤ 145 ∧ ∃ s', core.run (edgesToReady s) s = .next s' ∧ s'.phase = .idle ∧ s'.Inv

/-- R236: with `START` accepted at an edge and no `rst` at the 145 that follow, the sequencer stands at every one of them where the
table of edge counts says. -/
def Obligations.EdgeCountsOfAChunk : Prop :=
  ∀ s : State, s.AcceptsStart → s.NoResetFor 146 → ∀ k, k ≤ 145 →
    ∃ s', core.run (k + 1) s = .next s' ∧ (s'.phase, s'.t.toNat) = positionAfterStart k

/-- R140: if `START` is accepted in a state with hash state `h` and block buffer `m`, and no `rst` occurs in the next 145 edges,
then after the 145th `H = COMPRESS(h, m)`, `phase = IDLE`, `dvalid = 1`, `mvalid = 0`, whatever commands the host presents. -/
def Obligations.ChunkIsCompressed : Prop :=
  ∀ (s : State) (h : Vector Word 5) (m : Vector Word 16),
    s.AcceptsStart → s.NoResetFor 146 → s.H = h.map some → (∀ i : Fin 16, s.W[i.val] = some m[i]) →
    ∃ s', core.run 146 s = .next s' ∧ s'.H = (compress h m).map some ∧ s'.phase = .idle ∧ s'.dvalid = true ∧ s'.mvalid = 0

/-- While the engine is busy, what the host presents (`rst` apart) has no effect on anything the engine computes: two runs that
differ only in the commands presented agree on all of R20's elements but `err` and `ecode`, until the core is ready
(R41, R60 item 5). -/
def Obligations.BusyEngineIgnoresTheHost : Prop :=
  ∀ (s : State) (ins1 ins2 : List Input) (k : Nat), s.Inv → k ≤ edgesToReady s →
    ({ s with inputs := ins1 } : State).NoResetFor k → ({ s with inputs := ins2 } : State).NoResetFor k →
    ∃ u1 u2 : State, core.run k { s with inputs := ins1 } = .next u1 ∧ core.run k { s with inputs := ins2 } = .next u2 ∧
      SameDatapath u1 u2

/-! ### The step -/

/-- A step runs the instruction it decodes (R40): with the engine idle it is `exec` of the command presented; with the host
silent it is `exec` of the micro-operation the phase selects. Around it the edge takes its input off the list, clears the
response and advances the draw number (log entries 1, 2, 4). -/
def Obligations.StepRunsTheDecodedInstruction : Prop :=
  ∀ (s : State) (i : Instr),
    let s0 : State := { s with inputs := s.inputs.tail, rsp := none, draws := s.draws + 1 }
    (∀ w, s.input = ⟨false, some w⟩ → s.phase = .idle → decode (.cmd w) = .ok i → step s = exec i s0) ∧
    (s.input = ⟨false, none⟩ → decode (.phase s.phase.bits) = .ok i → step s = exec i s0)

/-- R40: "An edge with `cmd_valid = 0` and `phase = IDLE` changes nothing": no element of R20; there is no response. The input list
and the draw number go on (the model's choice: log entries 1, 4). -/
def Obligations.SilentIdleEdgeChangesNothing : Prop :=
  ∀ s : State, s.input = ⟨false, none⟩ → s.phase = .idle →
    step s = .next { s with inputs := s.inputs.tail, rsp := none, draws := s.draws + 1 }

/-- A command and a micro-operation at the same edge both take effect, on disjoint state (R41, R197 item 2): the next state is
the micro-operation's, judged alone on the state before the edge, with `err`, `ecode` and the response of the command, judged
alone on the same state, and the command changes nothing else. -/
def Obligations.CommandAndMicroOperationAreDisjoint : Prop :=
  ∀ (s e : State) (w : CmdWord) (i : Instr),
    s.input = ⟨false, some w⟩ → decode (.phase s.phase.bits) = .ok i →
    exec i { s with inputs := s.inputs.tail, rsp := none, draws := s.draws + 1 } = .next e →
    ∃ c : State,
      exec (decodeCmd w) { s with inputs := s.inputs.tail, rsp := none, draws := s.draws + 1 } = .next c ∧
      c = { s with inputs := s.inputs.tail, draws := s.draws + 1, err := c.err, ecode := c.ecode, rsp := c.rsp } ∧
      e.err = s.err ∧ e.ecode = s.ecode ∧ e.rsp = none ∧
      step s = .next { e with err := c.err, ecode := c.ecode, rsp := c.rsp }

/-- R33: where the sequencer goes at every edge from every legal position, one line an edge. -/
def Obligations.SequencerMovesOnlyAsStated : Prop :=
  ∀ s s' : State, s.SequencerOk → step s = .next s' →
    (s.input.rst = true → s'.phase = .idle ∧ s'.t = 0) ∧
    (s.input.rst = false →
      (s.phase = .idle → s.AcceptsStart → s'.phase = .expand ∧ s'.t = 16) ∧
      (s.phase = .idle → ¬s.AcceptsStart → s'.phase = .idle ∧ s'.t = 0) ∧
      (s.phase = .expand → s.t.toNat < 79 → s'.phase = .expand ∧ s'.t.toNat = s.t.toNat + 1) ∧
      (s.phase = .expand → s.t.toNat = 79 → s'.phase = .round ∧ s'.t = 0) ∧
      (s.phase = .round → s.t.toNat < 79 → s'.phase = .round ∧ s'.t.toNat = s.t.toNat + 1) ∧
      (s.phase = .round → s.t.toNat = 79 → s'.phase = .fold ∧ s'.t = 0) ∧
      (s.phase = .fold → s'.phase = .idle ∧ s'.t = 0))

/-- R34: what sets and clears every flag, at any edge from any state. -/
def Obligations.FlagsChangeOnlyAsStated : Prop :=
  ∀ s s' : State, step s = .next s' →
    (s'.dvalid = true ↔ s.input.rst = false ∧
      (s.phase = .fold ∨ (s.dvalid = true ∧ ¬s.AcceptsInit ∧ ¬s.AcceptsStart))) ∧
    (s'.inited = true ↔ s.input.rst = false ∧ (s.AcceptsInit ∨ s.inited = true)) ∧
    (s'.err = true ↔ Response.Refused s'.rsp ∨ (s.input.rst = false ∧ s.err = true ∧ ¬s.Presents .clrerr)) ∧
    (s.input.rst = true ∨ s.Presents .clrerr → s'.ecode = 0) ∧
    (s.input.rst = false → ¬s.Presents .clrerr →
      (s.err = true ∨ ¬Response.Refused s'.rsp → s'.ecode = s.ecode) ∧
      (s.err = false → ∀ r, s'.rsp = some r → r.code ≠ .ok → s'.ecode = r.code.bits)) ∧
    (∀ j : Fin 16, s'.mvalid.getLsbD j.val = true ↔ s.input.rst = false ∧ s.phase ≠ .fold ∧
      (s.mvalid.getLsbD j.val = true ∨ ∃ data, s.AcceptsLoadw (BitVec.ofNat 4 j.val) data))

/-- R153: at every edge that is neither an accepted `INIT`, nor a `FOLD`, nor a reset, `H[0..4]` are unchanged; a reset leaves the
five registers holding no value. -/
def Obligations.HashStateHolds : Prop :=
  ∀ s s' : State, step s = .next s' →
    (s.input.rst = false → ¬s.AcceptsInit → s.phase ≠ .fold → s'.H = s.H) ∧
    (s.input.rst = true → ∀ i : Fin 5, s'.H[i] = none)

/-- Who writes the schedule store and the working registers (R20's table): `W[0..15]` only `LOADW` of that word, `W[16..79]` only
the `EXPAND` of that index, both discarded by `FOLD`; `a..e` only `START`, `ROUND` and `FOLD`; and reset. -/
def Obligations.ScheduleAndWorkingRegistersHold : Prop :=
  ∀ s s' : State, step s = .next s' → s.input.rst = false → s.phase ≠ .fold →
    (∀ j : Fin 80, j.val < 16 → (∀ data, ¬s.AcceptsLoadw (BitVec.ofNat 4 j.val) data) → s'.W[j] = s.W[j]) ∧
    (∀ j : Fin 80, 16 ≤ j.val → ¬(s.phase = .expand ∧ s.t.toNat = j.val) → s'.W[j] = s.W[j]) ∧
    (s.phase ≠ .round → ¬s.AcceptsStart →
      s'.a = s.a ∧ s'.b = s.b ∧ s'.c = s.c ∧ s'.d = s.d ∧ s'.e = s.e)

/-- R76: every command taken has exactly one response, at the same edge, computed from the state before it: `H[idx]` for a
performed `RDDIG`, the status word for `RDSTAT`, zero for every other; an edge without a command has none. -/
def Obligations.EveryCommandIsAnsweredAtItsEdge : Prop :=
  ∀ s : State, s.SequencerOk → ∃ s', step s = .next s' ∧
    (s.input.rst = true ∨ s.input.cmd = none → s'.rsp = none) ∧
    (∀ i, s.Presents i → ∃ r, s'.rsp = some r ∧
      (r.code ≠ .ok → r.data = 0) ∧
      (r.code = .ok → i = .rdstat → r.data = s.status) ∧
      (r.code = .ok → ∀ idx, i = .rddig idx → ∀ h : idx.toNat < 5, ∀ v, s.H[idx.toNat] = some v → r.data = v) ∧
      (r.code = .ok → i ≠ .rdstat → (∀ idx, i ≠ .rddig idx) → r.data = 0))

/-! ### Refusals -/

/-- R196: the code reported for a command is the first cause that applies, in the stated order; `OK` if none does (R191, R108). -/
def Obligations.RefusalCodeIsTheFirstCause : Prop :=
  ∀ (i : Instr) (s : State), i.isCommand = true →
    ∃ (s' : State) (r : Response), exec i s = .next s' ∧ s'.rsp = some r ∧ r.code = firstCause i s

/-- R193: the complete effect of a refusal: the response carries the code and data 0, `err` and `ecode` record it if it is the
first, and nothing else is written; at an edge, every other element is what it would have been had no command been
presented. -/
def Obligations.RefusalHasNoOtherEffect : Prop :=
  (∀ (i : Instr) (s s' : State) (r : Response), i.isCommand = true → exec i s = .next s' → s'.rsp = some r → r.code ≠ .ok →
    s' = { s with
      err := true
      ecode := if s.err = true then s.ecode else r.code.bits
      rsp := some ⟨r.code, 0⟩ }) ∧
  (∀ (s e s' : State) (w : CmdWord) (r : Response),
    s.input = ⟨false, some w⟩ → step { s with inputs := ⟨false, none⟩ :: s.inputs.tail } = .next e →
    step s = .next s' → s'.rsp = some r → r.code ≠ .ok →
    s' = { e with
      err := true
      ecode := if s.err = true then s.ecode else r.code.bits
      rsp := some ⟨r.code, 0⟩ })

/-- A refused command repeated in the state it leaves is refused again with the same code and changes nothing (R194, R198). -/
def Obligations.RepeatedRefusalIsTheSame : Prop :=
  ∀ (i : Instr) (s s' : State) (r : Response), i.isCommand = true → exec i s = .next s' → s'.rsp = some r → r.code ≠ .ok →
    exec i s' = .next s'

/-- The `err` flag has no effect on any command (R198): in two states that differ only in `err` and `ecode` a command is
performed or refused identically, with the same response but for the status word of `RDSTAT`. -/
def Obligations.ErrorFlagBlocksNothing : Prop :=
  ∀ (i : Instr) (s : State) (x : Bool) (y : BitVec 3), i.isCommand = true →
    ∃ (u v : State) (p q : Response),
      exec i s = .next u ∧ exec i { s with err := x, ecode := y } = .next v ∧ u.rsp = some p ∧ v.rsp = some q ∧
      p.code = q.code ∧ (i ≠ .rdstat → p.data = q.data) ∧
      v = { u with err := v.err, ecode := v.ecode, rsp := v.rsp }

/-! ### The commands -/

/-- R100: `NOP` is performed in any state: response `(OK, 0)`, nothing else. -/
def Obligations.NopDoesNothing : Prop :=
  (∀ w : CmdWord, w.extractLsb' 36 4 = 0x0 → decodeCmd w = .nop) ∧
  (∀ s : State, exec .nop s = .next { s with rsp := some ⟨.ok, 0x00000000⟩ })

/-- R101, R151: `INIT` when idle loads the five initial constants, sets `inited`, clears `dvalid` and writes nothing else; while a
chunk is in flight it is refused with `ERR_BUSY`. R101 says only `IV`: that the five numerals are its value is THE MODEL'S CHOICE
(log entry 7) of the values R8 gives the parameters. -/
def Obligations.InitLoadsTheInitialHashState : Prop :=
  (∀ w : CmdWord, w.extractLsb' 36 4 = 0x1 → decodeCmd w = .init) ∧
  (∀ s : State, s.phase = .idle → exec .init s = .next { s with
    H := #v[some 0x67452301, some 0xEFCDAB89, some 0x98BADCFE, some 0x10325476, some 0xC3D2E1F0]
    inited := true
    dvalid := false
    rsp := some ⟨.ok, 0x00000000⟩ }) ∧
  (∀ s : State, s.phase ≠ .idle → exec .init s = .next { s with
    err := true, ecode := if s.err = true then s.ecode else 3, rsp := some ⟨.errBusy, 0x00000000⟩ })

/-- R102: `LOADW idx, data` when idle writes `W[idx]` and sets bit `idx` of `mvalid`, for all sixteen indices; the other seventy-nine
words, the other fifteen bits and everything else are unchanged; while busy it is refused with `ERR_BUSY`. -/
def Obligations.LoadwStoresOneWord : Prop :=
  (∀ w : CmdWord, w.extractLsb' 36 4 = 0x2 → decodeCmd w = .loadw (w.extractLsb' 32 4) (w.extractLsb' 0 32)) ∧
  (∀ (s : State) (idx : BitVec 4) (data : Word), s.phase = .idle →
    ∃ s', exec (.loadw idx data) s = .next s' ∧
      (∀ j : Fin 80, s'.W[j] = if j.val = idx.toNat then some data else s.W[j]) ∧
      (∀ j : Fin 16, s'.mvalid.getLsbD j.val = (decide (j.val = idx.toNat) || s.mvalid.getLsbD j.val)) ∧
      s' = { s with W := s'.W, mvalid := s'.mvalid, rsp := some ⟨.ok, 0x00000000⟩ }) ∧
  (∀ (s : State) (idx : BitVec 4) (data : Word), s.phase ≠ .idle → exec (.loadw idx data) s = .next { s with
    err := true, ecode := if s.err = true then s.ecode else 3, rsp := some ⟨.errBusy, 0x00000000⟩ })

/-- R103: `START` when idle, initialised and fully loaded copies `H` into the working registers, sends the sequencer to
`(EXPAND, 16)`, clears `dvalid` and writes nothing else; otherwise it is refused with `ERR_BUSY`, `ERR_NOINIT` or
`ERR_INCOMPLETE`, in this order. -/
def Obligations.StartBeginsAChunk : Prop :=
  (∀ w : CmdWord, w.extractLsb' 36 4 = 0x3 → decodeCmd w = .start) ∧
  (∀ s : State, s.phase = .idle → s.inited = true → s.mvalid = 0xFFFF → exec .start s = .next { s with
    a := s.H[0], b := s.H[1], c := s.H[2], d := s.H[3], e := s.H[4]
    phase := .expand, t := 16, dvalid := false, rsp := some ⟨.ok, 0x00000000⟩ }) ∧
  (∀ s : State, s.phase ≠ .idle → exec .start s = .next { s with
    err := true, ecode := if s.err = true then s.ecode else 3, rsp := some ⟨.errBusy, 0x00000000⟩ }) ∧
  (∀ s : State, s.phase = .idle → s.inited = false → exec .start s = .next { s with
    err := true, ecode := if s.err = true then s.ecode else 4, rsp := some ⟨.errNoinit, 0x00000000⟩ }) ∧
  (∀ s : State, s.phase = .idle → s.inited = true → s.mvalid ≠ 0xFFFF → exec .start s = .next { s with
    err := true, ecode := if s.err = true then s.ecode else 5, rsp := some ⟨.errIncomplete, 0x00000000⟩ })

/-- R104: `RDDIG idx`, `idx` 0 to 4, when idle and initialised returns `H[idx]` and changes nothing; `idx` 5 to 15 is refused with
`ERR_INDEX` in every state, then `ERR_BUSY`, then `ERR_NOINIT`. -/
def Obligations.RddigReadsOneHashWord : Prop :=
  (∀ w : CmdWord, w.extractLsb' 36 4 = 0x4 → decodeCmd w = .rddig (w.extractLsb' 32 4)) ∧
  (∀ (s : State) (idx : BitVec 4) (h : idx.toNat < 5) (x : Word), s.phase = .idle → s.inited = true → s.H[idx.toNat] = some x →
    exec (.rddig idx) s = .next { s with rsp := some ⟨.ok, x⟩ }) ∧
  (∀ (s : State) (idx : BitVec 4), 5 ≤ idx.toNat → exec (.rddig idx) s = .next { s with
    err := true, ecode := if s.err = true then s.ecode else 2, rsp := some ⟨.errIndex, 0x00000000⟩ }) ∧
  (∀ (s : State) (idx : BitVec 4), idx.toNat < 5 → s.phase ≠ .idle → exec (.rddig idx) s = .next { s with
    err := true, ecode := if s.err = true then s.ecode else 3, rsp := some ⟨.errBusy, 0x00000000⟩ }) ∧
  (∀ (s : State) (idx : BitVec 4), idx.toNat < 5 → s.phase = .idle → s.inited = false → exec (.rddig idx) s = .next { s with
    err := true, ecode := if s.err = true then s.ecode else 4, rsp := some ⟨.errNoinit, 0x00000000⟩ })

/-- R105, R78: `RDSTAT` in any state returns the status word, every bit of it as laid out, and changes nothing. -/
def Obligations.RdstatReturnsTheStatusWord : Prop :=
  (∀ w : CmdWord, w.extractLsb' 36 4 = 0x5 → decodeCmd w = .rdstat) ∧
  (∀ s : State, ∃ v : Word, exec .rdstat s = .next { s with rsp := some ⟨.ok, v⟩ } ∧
    v.getLsbD 0 = decide (s.phase = .idle) ∧ v.getLsbD 1 = s.dvalid ∧ v.getLsbD 2 = s.inited ∧ v.getLsbD 3 = s.err ∧
    v.extractLsb' 4 3 = s.ecode ∧ v.extractLsb' 7 9 = 0 ∧ v.extractLsb' 16 16 = s.mvalid)

/-- R106: `CLRERR` in any state clears `err` and `ecode` and changes nothing else. -/
def Obligations.ClrerrClearsTheErrorRecord : Prop :=
  (∀ w : CmdWord, w.extractLsb' 36 4 = 0x6 → decodeCmd w = .clrerr) ∧
  (∀ s : State, exec .clrerr s = .next { s with err := false, ecode := 0, rsp := some ⟨.ok, 0x00000000⟩ })

/-- R107: a word whose `op` is 7 to 15 is one of the two reserved rows, and is refused with `ERR_ILLEGAL` in every state. -/
def Obligations.ReservedWordsAreIllegal : Prop :=
  (∀ w : CmdWord, w.extractLsb' 36 4 = 0x7 → decodeCmd w = .reserved7) ∧
  (∀ w : CmdWord, 8 ≤ (w.extractLsb' 36 4).toNat → decodeCmd w = .reserved8to15 (w.extractLsb' 36 4)) ∧
  (∀ s : State, exec .reserved7 s = .next { s with
    err := true, ecode := if s.err = true then s.ecode else 1, rsp := some ⟨.errIllegal, 0x00000000⟩ }) ∧
  (∀ (s : State) (op : BitVec 4), exec (.reserved8to15 op) s = .next { s with
    err := true, ecode := if s.err = true then s.ecode else 1, rsp := some ⟨.errIllegal, 0x00000000⟩ })

/-! ### The micro-operations -/

/-- R121: `EXPAND` with `16 <= t <= 79` and its four source words held writes the rotation by one of their XOR to `W[t]`, moves on to
`t + 1` or to round 0, and changes nothing else. -/
def Obligations.ExpandWritesOneScheduleWord : Prop :=
  ∀ (s : State) (w3 w8 w14 w16 : Word), 16 ≤ s.t.toNat → s.t.toNat ≤ 79 →
    s.W[s.t.toNat - 3]? = some (some w3) → s.W[s.t.toNat - 8]? = some (some w8) →
    s.W[s.t.toNat - 14]? = some (some w14) → s.W[s.t.toNat - 16]? = some (some w16) →
    ∃ s' : State, exec .expand s = .next s' ∧
      (∀ j : Fin 80, s'.W[j] =
        if j.val = s.t.toNat then some ((w3 ^^^ w8 ^^^ w14 ^^^ w16).rotateLeft 1) else s.W[j]) ∧
      (s.t.toNat = 79 → s' = { s with W := s'.W, phase := .round, t := 0 }) ∧
      (s.t.toNat < 79 → s' = { s with W := s'.W, t := s'.t } ∧ s'.t.toNat = s.t.toNat + 1)

/-- R134, R131, R132, R133: `ROUND` with `t <= 79` and its operands held writes the five working registers with the stated values
(the function and the constant are those of the quartile of `t`), moves on to `t + 1` or to the fold, and changes nothing
else. R132 says only `K[t div 20]`: that the four numerals are its value is THE MODEL'S CHOICE (log entry 7) of the values R8
gives the parameters. -/
def Obligations.RoundMixesTheWorkingRegisters : Prop :=
  ∀ (s : State) (a b c d e w : Word), s.t.toNat ≤ 79 →
    s.a = some a → s.b = some b → s.c = some c → s.d = some d → s.e = some e → s.W[s.t.toNat]? = some (some w) →
    ∃ (s' : State) (r : Work), exec .round s = .next s' ∧
      r.a = a.rotateLeft 5
        + (if s.t.toNat < 20 then (b &&& c) ||| (~~~b &&& d)
           else if s.t.toNat < 40 then b ^^^ c ^^^ d
           else if s.t.toNat < 60 then (b &&& c) ||| (b &&& d) ||| (c &&& d)
           else b ^^^ c ^^^ d)
        + e
        + (if s.t.toNat < 20 then 0x5A827999 else if s.t.toNat < 40 then 0x6ED9EBA1
           else if s.t.toNat < 60 then 0x8F1BBCDC else 0xCA62C1D6)
        + w ∧
      r.b = a ∧ r.c = b.rotateLeft 30 ∧ r.d = c ∧ r.e = d ∧
      (s.t.toNat = 79 → s' = { s with
        a := some r.a, b := some r.b, c := some r.c, d := some r.d, e := some r.e, phase := .fold, t := 0 }) ∧
      (s.t.toNat < 79 → s' = { s with
        a := some r.a, b := some r.b, c := some r.c, d := some r.d, e := some r.e, t := s'.t } ∧
        s'.t.toNat = s.t.toNat + 1)

/-- R139: `FOLD` with its operands held writes the five sums modulo 2^32 to the hash state, leaves the working registers and the
schedule without a value, clears `mvalid`, sets `dvalid`, makes the core idle and changes nothing else. -/
def Obligations.FoldAddsIntoTheHashState : Prop :=
  ∀ (s : State) (h : Vector Word 5) (a b c d e : Word), s.H = h.map some →
    s.a = some a → s.b = some b → s.c = some c → s.d = some d → s.e = some e →
    exec .fold s = .next { s with
      H := #v[some (h[0] + a), some (h[1] + b), some (h[2] + c), some (h[3] + d), some (h[4] + e)]
      a := none, b := none, c := none, d := none, e := none
      W := Vector.replicate 80 none
      mvalid := 0x0000
      dvalid := true
      phase := .idle }

/-- THE MODEL'S CHOICE (log entry 3): in states no run reaches, where an operand holds no value, `RDDIG`, `EXPAND`, `ROUND` and `FOLD`
still complete, with the same frame and with values the statement leaves free. -/
def Obligations.ReadsWithoutAValueComplete : Prop :=
  (∀ (s : State) (idx : BitVec 4), idx.toNat < 5 → s.phase = .idle → s.inited = true →
    ∃ v, exec (.rddig idx) s = .next { s with rsp := some ⟨.ok, v⟩ }) ∧
  (∀ s : State, 16 ≤ s.t.toNat → s.t.toNat ≤ 79 → ∃ (s' : State) (v : Word), exec .expand s = .next s' ∧
    (∀ j : Fin 80, s'.W[j] = if j.val = s.t.toNat then some v else s.W[j]) ∧
    s' = { s with W := s'.W, phase := if s.t.toNat = 79 then .round else s.phase, t := s'.t }) ∧
  (∀ s : State, s.t.toNat ≤ 79 → ∃ (s' : State) (r : Work), exec .round s = .next s' ∧
    s' = { s with
      a := some r.a, b := some r.b, c := some r.c, d := some r.d, e := some r.e
      phase := if s.t.toNat = 79 then .fold else s.phase
      t := s'.t }) ∧
  (∀ s : State, ∃ v : Vector Word 5, exec .fold s = .next { s with
    H := v.map some
    a := none, b := none, c := none, d := none, e := none
    W := Vector.replicate 80 none
    mvalid := 0x0000
    dvalid := true
    phase := .idle })

/-- Outside the positions of R42 the behaviour "is not specified" (U1, treatment stuck): `EXPAND` and `ROUND` stop by name there,
and only there (log entry 5: the model's choice). -/
def Obligations.MicroOperationsStopOutsideTheLegalPositions : Prop :=
  (∀ s : State, exec .expand s = .fault .sequencerOutOfRange ↔ ¬(16 ≤ s.t.toNat ∧ s.t.toNat ≤ 79)) ∧
  (∀ s : State, exec .round s = .fault .sequencerOutOfRange ↔ 80 ≤ s.t.toNat)

/-! ### The encoding -/

/-- Decoding the encoding of a well-formed instruction gives it back, for every instruction and every value of its operands. -/
def Obligations.DecodeOfEncodeIsTheInstruction : Prop :=
  ∀ i : Instr, WellFormed i → decode (encode i) = .ok i

/-- R81: every 40-bit word decodes to a well-formed command of the table, the one its `op` selects, with the fields that command
uses; and two words decode to the same command exactly when they agree on `op` and on the fields that command uses
(R75). -/
def Obligations.WordsDecodeAlikeExactlyOnUsedFields : Prop :=
  (∀ w : CmdWord, WellFormed (decodeCmd w) ∧ (decodeCmd w).isCommand = true) ∧
  (∀ w : CmdWord,
    (w.extractLsb' 36 4 = 0 → decodeCmd w = .nop) ∧ (w.extractLsb' 36 4 = 1 → decodeCmd w = .init) ∧
    (w.extractLsb' 36 4 = 2 → decodeCmd w = .loadw (w.extractLsb' 32 4) (w.extractLsb' 0 32)) ∧
    (w.extractLsb' 36 4 = 3 → decodeCmd w = .start) ∧
    (w.extractLsb' 36 4 = 4 → decodeCmd w = .rddig (w.extractLsb' 32 4)) ∧
    (w.extractLsb' 36 4 = 5 → decodeCmd w = .rdstat) ∧ (w.extractLsb' 36 4 = 6 → decodeCmd w = .clrerr) ∧
    (w.extractLsb' 36 4 = 7 → decodeCmd w = .reserved7) ∧
    (8 ≤ (w.extractLsb' 36 4).toNat → decodeCmd w = .reserved8to15 (w.extractLsb' 36 4))) ∧
  (∀ w u : CmdWord, decodeCmd w = decodeCmd u ↔
    w.extractLsb' 36 4 = u.extractLsb' 36 4 ∧
    (w.extractLsb' 36 4 = 2 ∨ w.extractLsb' 36 4 = 4 → w.extractLsb' 32 4 = u.extractLsb' 32 4) ∧
    (w.extractLsb' 36 4 = 2 → w.extractLsb' 0 32 = u.extractLsb' 0 32))

/-- R85: the nine CMD40 rows are pairwise disjoint and together match every 40-bit word; and the row a word matches is that of
the command it decodes to. -/
def Obligations.TableRowsAreDisjointAndTotal : Prop :=
  (∀ w : CmdWord, ∃ r ∈ cmdRows, r.accepts w = true ∧ r.mnemonic = (decodeCmd w).mnemonic) ∧
  (∀ (w : CmdWord) (r q : CmdRow), r ∈ cmdRows → q ∈ cmdRows → r.accepts w = true → q.accepts w = true → r = q)

/-- The words written out in the spec (R72, R73, R75, R81, R100 to R107, R80) decode to the instructions they stand for. -/
def Obligations.WrittenOutWordsDecode : Prop :=
  decodeCmd 0x0712345678 = .nop ∧ decodeCmd 0x1FFFFFFFFF = .init ∧ decodeCmd 0x2F00000018 = .loadw 15 0x00000018 ∧
  decodeCmd 0x2061626380 = .loadw 0 0x61626380 ∧ decodeCmd 0x3A12345678 = .start ∧ decodeCmd 0x41CAFEF00D = .rddig 1 ∧
  decodeCmd 0x4F00000000 = .rddig 15 ∧ decodeCmd 0x5000000000 = .rdstat ∧ decodeCmd 0x6000000000 = .clrerr ∧
  decodeCmd 0x7300001234 = .reserved7 ∧ decodeCmd 0xFFFFFFFFFF = .reserved8to15 15 ∧
  decodePhase 0b01 = .ok .expand ∧ decodePhase 0b10 = .ok .round ∧ decodePhase 0b11 = .ok .fold ∧
  decodePhase 0b00 = .error .idlePhase

/-! ### The arithmetic -/

/-- R90: bit `i` of `ROTL(x, n)` is bit `(i - n) mod 32` of `x`. -/
def Obligations.RotlMovesEveryBit : Prop :=
  ∀ (x : Word) (n : BitVec 5) (i : Nat), i < 32 → (rotl x n).getLsbD i = x.getLsbD ((i + 32 - n.toNat) % 32)

/-- Corner cases of `ROTL` (R94): the identity at 0, the round trip, composition, distribution over XOR. -/
def Obligations.RotlRoundTripAndComposition : Prop :=
  (∀ x : Word, rotl x 0 = x) ∧
  (∀ (x : Word) (n : BitVec 5), n ≠ 0 → rotl (rotl x n) (BitVec.ofNat 5 (32 - n.toNat)) = x) ∧
  (∀ (x : Word) (m n : BitVec 5), rotl (rotl x m) n = rotl x (m + n)) ∧
  (∀ (x y : Word) (n : BitVec 5), rotl (x ^^^ y) n = rotl x n ^^^ rotl y n)

/-- R131, bit by bit: rounds 0 to 19 choose, 20 to 39 and 60 to 79 the parity, 40 to 59 the majority of the three bits. -/
def Obligations.MixingFunctionPerBitPosition : Prop :=
  ∀ (t : Nat) (b c d : Word) (i : Nat), t ≤ 79 → i < 32 →
    (t ≤ 19 → (mixFn t b c d).getLsbD i = if b.getLsbD i = true then c.getLsbD i else d.getLsbD i) ∧
    (20 ≤ t ∧ t ≤ 39 ∨ 60 ≤ t → ((mixFn t b c d).getLsbD i = true ↔
      ((b.getLsbD i).toNat + (c.getLsbD i).toNat + (d.getLsbD i).toNat) % 2 = 1)) ∧
    (40 ≤ t ∧ t ≤ 59 → ((mixFn t b c d).getLsbD i = true ↔
      2 ≤ (b.getLsbD i).toNat + (c.getLsbD i).toNat + (d.getLsbD i).toNat))

/-- R120, R122: the schedule of a chunk has eighty words; 0 to 15 are the chunk's own and every later one is the rotation by one of
the XOR of the four words 3, 8, 14 and 16 places before it. -/
def Obligations.ScheduleFollowsTheRecurrence : Prop :=
  ∀ m : Vector Word 16,
    (schedule m).length = 80 ∧
    (∀ i : Fin 16, (schedule m)[i.val]? = some m[i]) ∧
    (∀ i, 16 ≤ i → i ≤ 79 → ∃ w3 w8 w14 w16 : Word,
      (schedule m)[i - 3]? = some w3 ∧ (schedule m)[i - 8]? = some w8 ∧
      (schedule m)[i - 14]? = some w14 ∧ (schedule m)[i - 16]? = some w16 ∧
      (schedule m)[i]? = some ((w3 ^^^ w8 ^^^ w14 ^^^ w16).rotateLeft 1))

/-- The expansion is linear over XOR (R124 item 2): the schedule of `X XOR Y` is the XOR of the schedules, word by word. -/
def Obligations.ScheduleIsLinearOverXor : Prop :=
  ∀ x y : Vector Word 16,
    schedule (Vector.zipWith (· ^^^ ·) x y) = List.zipWith (· ^^^ ·) (schedule x) (schedule y)

/-! ### The digest -/

/-- R160: the digest port is the five registers concatenated, register 0 in the top 32 bits. -/
def Obligations.DigestPortIsTheConcatenation : Prop :=
  ∀ (s : State) (h : Vector Word 5), s.H = h.map some →
    s.digestPort.toNat = h[0].toNat * 2 ^ 128 + h[1].toNat * 2 ^ 96 + h[2].toNat * 2 ^ 64 + h[3].toNat * 2 ^ 32 + h[4].toNat

/-- Reading the digest word by word with `RDDIG 0` to `RDDIG 4` gives the same 160 bits as the port, most significant word first
(R162, R104). -/
def Obligations.RddigReadsBackThePort : Prop :=
  ∀ (s : State) (idx : BitVec 4), s.Inv → s.phase = .idle → s.inited = true → idx.toNat < 5 →
    exec (.rddig idx) s = .next { s with rsp := some ⟨.ok, s.digestPort.extractLsb' (32 * (4 - idx.toNat)) 32⟩ }

/-- While `digest_valid` is 1 the digest port is stable: it keeps its value and stays valid at every edge that is not a reset, an
accepted `INIT` or an accepted `START` (R161, R57). -/
def Obligations.DigestIsStableWhileValid : Prop :=
  ∀ s s' : State, s.Inv → s.digestValidPort = true → step s = .next s' → s.input.rst = false → ¬s.AcceptsInit → ¬s.AcceptsStart →
    s'.digestPort = s.digestPort ∧ s'.digestValidPort = true

/-! ### The host's contract -/

/-- R171: the padded stream is the message, the byte 0x80, `z` zero bytes and the 64-bit big-endian bit length; `z = (55 - L) mod 64`,
`k = 7 + 8 z` zero bits is the least number that makes the total a multiple of 512, and the length in bytes is `64 N`. -/
def Obligations.PaddedStreamIsAsStated : Prop :=
  ∀ m : List Byte, 8 * m.length < 2 ^ 64 →
    ∃ b : List Byte,
      paddedStream m = m ++ 0x80 :: (List.replicate (zeroBytes m.length) 0 ++ b) ∧
      b.length = 8 ∧ b.foldl (fun acc x => acc * 256 + x.toNat) 0 = 8 * m.length ∧
      (zeroBytes m.length < 64 ∧ (zeroBytes m.length + m.length) % 64 = 55) ∧
      zeroBits m.length = 7 + 8 * zeroBytes m.length ∧
      (8 * m.length + 1 + zeroBits m.length + 64) % 512 = 0 ∧
      (∀ k, (8 * m.length + 1 + k + 64) % 512 = 0 → zeroBits m.length ≤ k) ∧
      (paddedStream m).length = 64 * numChunks m.length

/-- R172: the number of chunks is `(L + 8) div 64 + 1`, equivalently `ceil((L + 9) / 64)`, and at least 1. -/
def Obligations.ChunkCountIsAsStated : Prop :=
  ∀ m : List Byte, (chunksOf m).length = (m.length + 8) / 64 + 1 ∧ (chunksOf m).length = (m.length + 9 + 63) / 64 ∧
    1 ≤ (chunksOf m).length

/-- R174: chunk `j` is bytes `64 (j - 1)` to `64 j - 1` of the padded stream, its word `i` four of them with the first most
significant, and in the last chunk words 14 and 15 are the halves of the bit length (R51, R52). -/
def Obligations.ChunksAreTheSlicedStream : Prop :=
  ∀ m : List Byte, 8 * m.length < 2 ^ 64 →
    (∀ (j : Nat) (i : Fin 16), j < numChunks m.length →
      ∃ (ck : Vector Word 16) (b0 b1 b2 b3 : Byte), (chunksOf m)[j]? = some ck ∧
        (paddedStream m)[64 * j + 4 * i.val]? = some b0 ∧ (paddedStream m)[64 * j + 4 * i.val + 1]? = some b1 ∧
        (paddedStream m)[64 * j + 4 * i.val + 2]? = some b2 ∧ (paddedStream m)[64 * j + 4 * i.val + 3]? = some b3 ∧
        ck[i] = b0 ++ b1 ++ b2 ++ b3) ∧
    (∃ ck : Vector Word 16, (chunksOf m)[numChunks m.length - 1]? = some ck ∧
      ck[14].toNat = 8 * m.length / 2 ^ 32 ∧ ck[15].toNat = 8 * m.length % 2 ^ 32)

/-- R176: a message of 2^64 bits or more is rejected and has no chunks, no driver and no digest; any shorter one is not. -/
def Obligations.OverlongMessagesAreRejected : Prop :=
  ∀ m : List Byte,
    (2 ^ 64 ≤ 8 * m.length → padMessage m = .error .lengthOverflow ∧ driverLines m = .error .lengthOverflow ∧
      digestOfMessage m = .error .lengthOverflow ∧ ∀ s, computeDigest m s = .error .lengthOverflow) ∧
    (8 * m.length < 2 ^ 64 → padMessage m = .ok (chunksOf m))

/-- R84: what every pseudo-instruction stands for. `LOADBLK`, `NOPS`, `HASHBLK` and `RDDIGEST` are the lines of their expansions;
`WAIT` repeats `RDSTAT` until a response says ready: from a legal position as many answer busy as the engine still needs edges
(none when the core is idle, 145 directly after an accepted `START`) and the next, the last, answers ready; and the digest that
`RDDIGEST` reads, the five `rsp_data` concatenated, is the one of the port. -/
def Obligations.PseudoInstructionsExpandAsStated : Prop :=
  (∀ (m : Vector Word 16) (x : Session), (AsmLine.loadblk m).run x = runLines
    [.command (.loadw 0 m[0]), .command (.loadw 1 m[1]), .command (.loadw 2 m[2]), .command (.loadw 3 m[3]),
      .command (.loadw 4 m[4]), .command (.loadw 5 m[5]), .command (.loadw 6 m[6]), .command (.loadw 7 m[7]),
      .command (.loadw 8 m[8]), .command (.loadw 9 m[9]), .command (.loadw 10 m[10]), .command (.loadw 11 m[11]),
      .command (.loadw 12 m[12]), .command (.loadw 13 m[13]), .command (.loadw 14 m[14]), .command (.loadw 15 m[15])] x) ∧
  (∀ (n : Nat) (x : Session), (AsmLine.nops n).run x = runLines (List.replicate n (.command .nop)) x) ∧
  (∀ x : Session, x.block.SequencerOk → ∃ (y : Session) (polls : List Response),
    AsmLine.wait.run x = .next y ∧ y.responses = x.responses ++ polls ∧ polls.length = edgesToReady x.block + 1 ∧
    (∀ k r, polls[k]? = some r → r.code = .ok ∧ (r.data.getLsbD 0 = true ↔ k = edgesToReady x.block)) ∧
    y.block.phase = .idle ∧
    (x.block.phase = .idle → polls.length = 1) ∧
    (x.block.phase = .expand → x.block.t = 16 → polls.length = 146)) ∧
  (∀ (m : Vector Word 16) (x : Session),
    (AsmLine.hashblk m).run x = runLines [.loadblk m, .command .start, .wait] x) ∧
  (∀ x : Session, AsmLine.rddigest.run x = runLines
    [.command (.rddig 0), .command (.rddig 1), .command (.rddig 2), .command (.rddig 3), .command (.rddig 4)] x) ∧
  (∀ x : Session, x.block.Inv → x.block.phase = .idle → x.block.inited = true →
    ∃ y : Session, AsmLine.rddigest.run x = .next y ∧ rddigestValue y.responses = some x.block.digestPort)

/-- R84, R140: with the core idle and initialised, the commands of `HASHBLK` (sixteen `LOADW`, `START`, `WAIT`) compress their chunk
into the hash state: 163 commands, all performed, the last answering the status word of a ready core with a valid digest. -/
def Obligations.HashblkCompressesItsChunk : Prop :=
  ∀ (x : Session) (h : Vector Word 5) (m : Vector Word 16),
    x.block.phase = .idle → x.block.inited = true → x.block.H = h.map some →
    ∃ (y : Session) (rs : List Response), (AsmLine.hashblk m).run x = .next y ∧
      y.block.H = (compress h m).map some ∧ y.block.phase = .idle ∧ y.block.inited = true ∧ y.block.dvalid = true ∧
      y.block.inputs = x.block.inputs ∧ y.block.rsp = some ⟨.ok, y.block.status⟩ ∧
      y.responses = x.responses ++ rs ∧ rs.length = 163 ∧ ∀ r ∈ rs, r.code = .ok

/-- R180, R141, R160: on any idle block, whatever it holds, `compute_digest` of a message that is not too long receives no refusal
(R184) and returns the digest of the chained compression of the message's chunks, which the digest port then shows, valid. -/
def Obligations.DriverComputesTheDigest : Prop :=
  ∀ (s : State) (m : List Byte), s.phase = .idle → 8 * m.length < 2 ^ 64 →
    ∃ (run : DriverRun) (v : BitVec 160), computeDigest m s = .ok (.next run) ∧ digestOfMessage m = .ok v ∧
      run.digest = some v ∧ run.session.block.digestPort = v ∧ run.session.block.digestValidPort = true ∧
      ∀ r ∈ run.session.responses, r.code = .ok

/-- R184: after a refusal no digest is returned. On a block that is busy, at any legal position, the run of `compute_digest` begins with
the refusal `ERR_BUSY` of its `INIT`, and returns none; and so does every run in which any response is a refusal. That such a
run goes on to its last line is THE MODEL'S CHOICE (log entry 20). -/
def Obligations.RefusedRunReturnsNoDigest : Prop :=
  (∀ (s : State) (m : List Byte) (run : DriverRun) (r : Response),
    computeDigest m s = .ok (.next run) → r ∈ run.session.responses → r.code ≠ .ok → run.digest = none) ∧
  (∀ (s : State) (m : List Byte), s.SequencerOk → s.phase ≠ .idle → 8 * m.length < 2 ^ 64 →
    ∃ run : DriverRun, computeDigest m s = .ok (.next run) ∧ run.session.responses[0]? = some ⟨.errBusy, 0⟩ ∧
      run.digest = none)
end

