-- ==== Sys2Proof/Laws/Decode.lean ====
section
/-! SUPPORT. The fields of a command word (R72) and the rows of the table (R73, R85). -/

namespace Sys2Proof

/-- Bit by bit: `data` in bits 31 to 0, `idx` in 35 to 32, `op` in 39 to 36 (R72). -/
theorem cmdOf_getLsbD (op idx : BitVec 4) (data : Word) (i : Nat) :
    (cmdOf op idx data).getLsbD i =
      if i < 32 then data.getLsbD i else if i < 36 then idx.getLsbD (i - 32) else op.getLsbD (i - 36) := by
  have h1 := BitVec.getLsbD_append (x := op ++ idx) (y := data) (i := i)
  have h2 := BitVec.getLsbD_append (x := op) (y := idx) (i := i - 32)
  have h3 : (cmdOf op idx data).getLsbD i = (op ++ idx ++ data).getLsbD i := rfl
  rw [h3, h1, h2]
  split
  · rfl
  · by_cases h : i < 36
    · have : i - 32 < 4 := by omega
      simp [h, this]
    · have : ¬ i - 32 < 4 := by omega
      have e : i - 32 - 4 = i - 36 := by omega
      simp only [h, this, if_false, e]

@[simp] theorem opField_cmdOf (op idx : BitVec 4) (data : Word) : opField (cmdOf op idx data) = op := by
  apply BitVec.eq_of_getLsbD_eq
  intro i hi
  have h1 : ¬(36 + i < 32) := by omega
  have h2 : ¬(36 + i < 36) := by omega
  have h3 : 36 + i - 36 = i := by omega
  simp only [opField, BitVec.getLsbD_extractLsb', cmdOf_getLsbD, h1, h2, h3, hi, if_false, decide_true, Bool.true_and]

@[simp] theorem idxField_cmdOf (op idx : BitVec 4) (data : Word) : idxField (cmdOf op idx data) = idx := by
  apply BitVec.eq_of_getLsbD_eq
  intro i hi
  have h1 : ¬(32 + i < 32) := by omega
  have h2 : 32 + i < 36 := by omega
  have h3 : 32 + i - 32 = i := by omega
  simp only [idxField, BitVec.getLsbD_extractLsb', cmdOf_getLsbD, h1, h2, h3, hi, if_false, if_true, decide_true,
    Bool.true_and]

@[simp] theorem dataField_cmdOf (op idx : BitVec 4) (data : Word) : dataField (cmdOf op idx data) = data := by
  apply BitVec.eq_of_getLsbD_eq
  intro i hi
  simp only [dataField, BitVec.getLsbD_extractLsb', cmdOf_getLsbD, Nat.zero_add, hi, if_true, decide_true, Bool.true_and]

/-- A word is the concatenation of its three fields (R72). -/
theorem cmdOf_fields (w : CmdWord) : cmdOf (opField w) (idxField w) (dataField w) = w := by
  apply BitVec.eq_of_getLsbD_eq
  intro i hi
  simp only [cmdOf_getLsbD, opField, idxField, dataField, BitVec.getLsbD_extractLsb']
  split
  · simp [*]
  · split
    · have h1 : 32 + (i - 32) = i := by omega
      have h2 : i - 32 < 4 := by omega
      simp [h1, h2]
    · have h1 : 36 + (i - 36) = i := by omega
      have h2 : i - 36 < 4 := by omega
      simp [h1, h2]

/-- The bits of the mask 0xF000000000 are the bits of `op`. -/
theorem opMask_getLsbD (i : Nat) (hi : i < 40) : (0xF000000000#40).getLsbD i = decide (36 ≤ i) := by
  have h : ∀ k : Fin 40, (0xF000000000#40).getLsbD k.val = decide (36 ≤ k.val) := by decide
  exact h ⟨i, hi⟩

/-- A word under the mask of a one-operation row is its `op` followed by zeros (R73). -/
theorem and_opMask (w : CmdWord) : w &&& 0xF000000000 = cmdOf (opField w) 0 0 := by
  apply BitVec.eq_of_getLsbD_eq
  intro i hi
  simp only [BitVec.getLsbD_and, cmdOf_getLsbD, opField, BitVec.getLsbD_extractLsb']
  rw [show (0xF000000000 : CmdWord) = 0xF000000000#40 from rfl, opMask_getLsbD i hi]
  by_cases h : 36 ≤ i
  · have h1 : ¬ i < 32 := by omega
    have h2 : ¬ i < 36 := by omega
    have h3 : 36 + (i - 36) = i := by omega
    have h4 : i - 36 < 4 := by omega
    simp [h, h1, h2, h3, h4]
  · have h2 : i < 36 := by omega
    simp [h, h2]

end Sys2Proof
end

