-- ==== Sys2Proof/Laws/State.lean ====
section
/-! SUPPORT. What each named operation of Machine/Ops.lean does to each field of the state: one lemma per field per operation,
so that no proof unfolds a record update. -/

namespace Sys2Proof.Machine

/-! `State.respond`: the response (R76). -/

@[simp] theorem State.respond_H (s : State) (code : RspCode) (data : Word) : (s.respond code data).H = s.H := rfl
@[simp] theorem State.respond_a (s : State) (code : RspCode) (data : Word) : (s.respond code data).a = s.a := rfl
@[simp] theorem State.respond_b (s : State) (code : RspCode) (data : Word) : (s.respond code data).b = s.b := rfl
@[simp] theorem State.respond_c (s : State) (code : RspCode) (data : Word) : (s.respond code data).c = s.c := rfl
@[simp] theorem State.respond_d (s : State) (code : RspCode) (data : Word) : (s.respond code data).d = s.d := rfl
@[simp] theorem State.respond_e (s : State) (code : RspCode) (data : Word) : (s.respond code data).e = s.e := rfl
@[simp] theorem State.respond_W (s : State) (code : RspCode) (data : Word) : (s.respond code data).W = s.W := rfl
@[simp] theorem State.respond_mvalid (s : State) (code : RspCode) (data : Word) : (s.respond code data).mvalid = s.mvalid := rfl
@[simp] theorem State.respond_phase (s : State) (code : RspCode) (data : Word) : (s.respond code data).phase = s.phase := rfl
@[simp] theorem State.respond_t (s : State) (code : RspCode) (data : Word) : (s.respond code data).t = s.t := rfl
@[simp] theorem State.respond_inited (s : State) (code : RspCode) (data : Word) : (s.respond code data).inited = s.inited := rfl
@[simp] theorem State.respond_dvalid (s : State) (code : RspCode) (data : Word) : (s.respond code data).dvalid = s.dvalid := rfl
@[simp] theorem State.respond_err (s : State) (code : RspCode) (data : Word) : (s.respond code data).err = s.err := rfl
@[simp] theorem State.respond_ecode (s : State) (code : RspCode) (data : Word) : (s.respond code data).ecode = s.ecode := rfl
@[simp] theorem State.respond_rsp (s : State) (code : RspCode) (data : Word) : (s.respond code data).rsp = some ⟨code, data⟩ := rfl
@[simp] theorem State.respond_inputs (s : State) (code : RspCode) (data : Word) : (s.respond code data).inputs = s.inputs := rfl
@[simp] theorem State.respond_draws (s : State) (code : RspCode) (data : Word) : (s.respond code data).draws = s.draws := rfl

/-! `State.recordError`: the error record (R193). -/

@[simp] theorem State.recordError_H (s : State) (code : RspCode) : (s.recordError code).H = s.H := rfl
@[simp] theorem State.recordError_a (s : State) (code : RspCode) : (s.recordError code).a = s.a := rfl
@[simp] theorem State.recordError_b (s : State) (code : RspCode) : (s.recordError code).b = s.b := rfl
@[simp] theorem State.recordError_c (s : State) (code : RspCode) : (s.recordError code).c = s.c := rfl
@[simp] theorem State.recordError_d (s : State) (code : RspCode) : (s.recordError code).d = s.d := rfl
@[simp] theorem State.recordError_e (s : State) (code : RspCode) : (s.recordError code).e = s.e := rfl
@[simp] theorem State.recordError_W (s : State) (code : RspCode) : (s.recordError code).W = s.W := rfl
@[simp] theorem State.recordError_mvalid (s : State) (code : RspCode) : (s.recordError code).mvalid = s.mvalid := rfl
@[simp] theorem State.recordError_phase (s : State) (code : RspCode) : (s.recordError code).phase = s.phase := rfl
@[simp] theorem State.recordError_t (s : State) (code : RspCode) : (s.recordError code).t = s.t := rfl
@[simp] theorem State.recordError_inited (s : State) (code : RspCode) : (s.recordError code).inited = s.inited := rfl
@[simp] theorem State.recordError_dvalid (s : State) (code : RspCode) : (s.recordError code).dvalid = s.dvalid := rfl
@[simp] theorem State.recordError_err (s : State) (code : RspCode) : (s.recordError code).err = true := rfl
@[simp] theorem State.recordError_ecode (s : State) (code : RspCode) : (s.recordError code).ecode = stickyCode s.err s.ecode code := rfl
@[simp] theorem State.recordError_rsp (s : State) (code : RspCode) : (s.recordError code).rsp = s.rsp := rfl
@[simp] theorem State.recordError_inputs (s : State) (code : RspCode) : (s.recordError code).inputs = s.inputs := rfl
@[simp] theorem State.recordError_draws (s : State) (code : RspCode) : (s.recordError code).draws = s.draws := rfl

/-! `State.clearError`: clearing the error record (R106). -/

@[simp] theorem State.clearError_H (s : State) : (s.clearError).H = s.H := rfl
@[simp] theorem State.clearError_a (s : State) : (s.clearError).a = s.a := rfl
@[simp] theorem State.clearError_b (s : State) : (s.clearError).b = s.b := rfl
@[simp] theorem State.clearError_c (s : State) : (s.clearError).c = s.c := rfl
@[simp] theorem State.clearError_d (s : State) : (s.clearError).d = s.d := rfl
@[simp] theorem State.clearError_e (s : State) : (s.clearError).e = s.e := rfl
@[simp] theorem State.clearError_W (s : State) : (s.clearError).W = s.W := rfl
@[simp] theorem State.clearError_mvalid (s : State) : (s.clearError).mvalid = s.mvalid := rfl
@[simp] theorem State.clearError_phase (s : State) : (s.clearError).phase = s.phase := rfl
@[simp] theorem State.clearError_t (s : State) : (s.clearError).t = s.t := rfl
@[simp] theorem State.clearError_inited (s : State) : (s.clearError).inited = s.inited := rfl
@[simp] theorem State.clearError_dvalid (s : State) : (s.clearError).dvalid = s.dvalid := rfl
@[simp] theorem State.clearError_err (s : State) : (s.clearError).err = false := rfl
@[simp] theorem State.clearError_ecode (s : State) : (s.clearError).ecode = 0 := rfl
@[simp] theorem State.clearError_rsp (s : State) : (s.clearError).rsp = s.rsp := rfl
@[simp] theorem State.clearError_inputs (s : State) : (s.clearError).inputs = s.inputs := rfl
@[simp] theorem State.clearError_draws (s : State) : (s.clearError).draws = s.draws := rfl

/-! `State.initHash`: write port 1 (R151, R101). -/

@[simp] theorem State.initHash_H (s : State) (iv : Vector Word 5) : (s.initHash iv).H = heldFive iv := rfl
@[simp] theorem State.initHash_a (s : State) (iv : Vector Word 5) : (s.initHash iv).a = s.a := rfl
@[simp] theorem State.initHash_b (s : State) (iv : Vector Word 5) : (s.initHash iv).b = s.b := rfl
@[simp] theorem State.initHash_c (s : State) (iv : Vector Word 5) : (s.initHash iv).c = s.c := rfl
@[simp] theorem State.initHash_d (s : State) (iv : Vector Word 5) : (s.initHash iv).d = s.d := rfl
@[simp] theorem State.initHash_e (s : State) (iv : Vector Word 5) : (s.initHash iv).e = s.e := rfl
@[simp] theorem State.initHash_W (s : State) (iv : Vector Word 5) : (s.initHash iv).W = s.W := rfl
@[simp] theorem State.initHash_mvalid (s : State) (iv : Vector Word 5) : (s.initHash iv).mvalid = s.mvalid := rfl
@[simp] theorem State.initHash_phase (s : State) (iv : Vector Word 5) : (s.initHash iv).phase = s.phase := rfl
@[simp] theorem State.initHash_t (s : State) (iv : Vector Word 5) : (s.initHash iv).t = s.t := rfl
@[simp] theorem State.initHash_inited (s : State) (iv : Vector Word 5) : (s.initHash iv).inited = true := rfl
@[simp] theorem State.initHash_dvalid (s : State) (iv : Vector Word 5) : (s.initHash iv).dvalid = false := rfl
@[simp] theorem State.initHash_err (s : State) (iv : Vector Word 5) : (s.initHash iv).err = s.err := rfl
@[simp] theorem State.initHash_ecode (s : State) (iv : Vector Word 5) : (s.initHash iv).ecode = s.ecode := rfl
@[simp] theorem State.initHash_rsp (s : State) (iv : Vector Word 5) : (s.initHash iv).rsp = s.rsp := rfl
@[simp] theorem State.initHash_inputs (s : State) (iv : Vector Word 5) : (s.initHash iv).inputs = s.inputs := rfl
@[simp] theorem State.initHash_draws (s : State) (iv : Vector Word 5) : (s.initHash iv).draws = s.draws := rfl

/-! `State.foldHash`: write port 2 (R152). -/

@[simp] theorem State.foldHash_H (s : State) (sums : Vector Word 5) : (s.foldHash sums).H = heldFive sums := rfl
@[simp] theorem State.foldHash_a (s : State) (sums : Vector Word 5) : (s.foldHash sums).a = s.a := rfl
@[simp] theorem State.foldHash_b (s : State) (sums : Vector Word 5) : (s.foldHash sums).b = s.b := rfl
@[simp] theorem State.foldHash_c (s : State) (sums : Vector Word 5) : (s.foldHash sums).c = s.c := rfl
@[simp] theorem State.foldHash_d (s : State) (sums : Vector Word 5) : (s.foldHash sums).d = s.d := rfl
@[simp] theorem State.foldHash_e (s : State) (sums : Vector Word 5) : (s.foldHash sums).e = s.e := rfl
@[simp] theorem State.foldHash_W (s : State) (sums : Vector Word 5) : (s.foldHash sums).W = s.W := rfl
@[simp] theorem State.foldHash_mvalid (s : State) (sums : Vector Word 5) : (s.foldHash sums).mvalid = s.mvalid := rfl
@[simp] theorem State.foldHash_phase (s : State) (sums : Vector Word 5) : (s.foldHash sums).phase = s.phase := rfl
@[simp] theorem State.foldHash_t (s : State) (sums : Vector Word 5) : (s.foldHash sums).t = s.t := rfl
@[simp] theorem State.foldHash_inited (s : State) (sums : Vector Word 5) : (s.foldHash sums).inited = s.inited := rfl
@[simp] theorem State.foldHash_dvalid (s : State) (sums : Vector Word 5) : (s.foldHash sums).dvalid = s.dvalid := rfl
@[simp] theorem State.foldHash_err (s : State) (sums : Vector Word 5) : (s.foldHash sums).err = s.err := rfl
@[simp] theorem State.foldHash_ecode (s : State) (sums : Vector Word 5) : (s.foldHash sums).ecode = s.ecode := rfl
@[simp] theorem State.foldHash_rsp (s : State) (sums : Vector Word 5) : (s.foldHash sums).rsp = s.rsp := rfl
@[simp] theorem State.foldHash_inputs (s : State) (sums : Vector Word 5) : (s.foldHash sums).inputs = s.inputs := rfl
@[simp] theorem State.foldHash_draws (s : State) (sums : Vector Word 5) : (s.foldHash sums).draws = s.draws := rfl

/-! `State.loadWord`: the writes of `LOADW` (R102). -/

@[simp] theorem State.loadWord_H (s : State) (idx : BitVec 4) (data : Word) : (s.loadWord idx data).H = s.H := rfl
@[simp] theorem State.loadWord_a (s : State) (idx : BitVec 4) (data : Word) : (s.loadWord idx data).a = s.a := rfl
@[simp] theorem State.loadWord_b (s : State) (idx : BitVec 4) (data : Word) : (s.loadWord idx data).b = s.b := rfl
@[simp] theorem State.loadWord_c (s : State) (idx : BitVec 4) (data : Word) : (s.loadWord idx data).c = s.c := rfl
@[simp] theorem State.loadWord_d (s : State) (idx : BitVec 4) (data : Word) : (s.loadWord idx data).d = s.d := rfl
@[simp] theorem State.loadWord_e (s : State) (idx : BitVec 4) (data : Word) : (s.loadWord idx data).e = s.e := rfl
@[simp] theorem State.loadWord_W (s : State) (idx : BitVec 4) (data : Word) : (s.loadWord idx data).W = s.W.set (bufferIndex idx) (some data) := rfl
@[simp] theorem State.loadWord_mvalid (s : State) (idx : BitVec 4) (data : Word) : (s.loadWord idx data).mvalid = markLoaded s.mvalid idx := rfl
@[simp] theorem State.loadWord_phase (s : State) (idx : BitVec 4) (data : Word) : (s.loadWord idx data).phase = s.phase := rfl
@[simp] theorem State.loadWord_t (s : State) (idx : BitVec 4) (data : Word) : (s.loadWord idx data).t = s.t := rfl
@[simp] theorem State.loadWord_inited (s : State) (idx : BitVec 4) (data : Word) : (s.loadWord idx data).inited = s.inited := rfl
@[simp] theorem State.loadWord_dvalid (s : State) (idx : BitVec 4) (data : Word) : (s.loadWord idx data).dvalid = s.dvalid := rfl
@[simp] theorem State.loadWord_err (s : State) (idx : BitVec 4) (data : Word) : (s.loadWord idx data).err = s.err := rfl
@[simp] theorem State.loadWord_ecode (s : State) (idx : BitVec 4) (data : Word) : (s.loadWord idx data).ecode = s.ecode := rfl
@[simp] theorem State.loadWord_rsp (s : State) (idx : BitVec 4) (data : Word) : (s.loadWord idx data).rsp = s.rsp := rfl
@[simp] theorem State.loadWord_inputs (s : State) (idx : BitVec 4) (data : Word) : (s.loadWord idx data).inputs = s.inputs := rfl
@[simp] theorem State.loadWord_draws (s : State) (idx : BitVec 4) (data : Word) : (s.loadWord idx data).draws = s.draws := rfl

/-! `State.moveTo`: a move of the sequencer (R33). -/

@[simp] theorem State.moveTo_H (s : State) (p : Phase) (n : BitVec 7) : (s.moveTo p n).H = s.H := rfl
@[simp] theorem State.moveTo_a (s : State) (p : Phase) (n : BitVec 7) : (s.moveTo p n).a = s.a := rfl
@[simp] theorem State.moveTo_b (s : State) (p : Phase) (n : BitVec 7) : (s.moveTo p n).b = s.b := rfl
@[simp] theorem State.moveTo_c (s : State) (p : Phase) (n : BitVec 7) : (s.moveTo p n).c = s.c := rfl
@[simp] theorem State.moveTo_d (s : State) (p : Phase) (n : BitVec 7) : (s.moveTo p n).d = s.d := rfl
@[simp] theorem State.moveTo_e (s : State) (p : Phase) (n : BitVec 7) : (s.moveTo p n).e = s.e := rfl
@[simp] theorem State.moveTo_W (s : State) (p : Phase) (n : BitVec 7) : (s.moveTo p n).W = s.W := rfl
@[simp] theorem State.moveTo_mvalid (s : State) (p : Phase) (n : BitVec 7) : (s.moveTo p n).mvalid = s.mvalid := rfl
@[simp] theorem State.moveTo_phase (s : State) (p : Phase) (n : BitVec 7) : (s.moveTo p n).phase = p := rfl
@[simp] theorem State.moveTo_t (s : State) (p : Phase) (n : BitVec 7) : (s.moveTo p n).t = n := rfl
@[simp] theorem State.moveTo_inited (s : State) (p : Phase) (n : BitVec 7) : (s.moveTo p n).inited = s.inited := rfl
@[simp] theorem State.moveTo_dvalid (s : State) (p : Phase) (n : BitVec 7) : (s.moveTo p n).dvalid = s.dvalid := rfl
@[simp] theorem State.moveTo_err (s : State) (p : Phase) (n : BitVec 7) : (s.moveTo p n).err = s.err := rfl
@[simp] theorem State.moveTo_ecode (s : State) (p : Phase) (n : BitVec 7) : (s.moveTo p n).ecode = s.ecode := rfl
@[simp] theorem State.moveTo_rsp (s : State) (p : Phase) (n : BitVec 7) : (s.moveTo p n).rsp = s.rsp := rfl
@[simp] theorem State.moveTo_inputs (s : State) (p : Phase) (n : BitVec 7) : (s.moveTo p n).inputs = s.inputs := rfl
@[simp] theorem State.moveTo_draws (s : State) (p : Phase) (n : BitVec 7) : (s.moveTo p n).draws = s.draws := rfl

/-! `State.latch`: the latch of `a..e` (R103). -/

@[simp] theorem State.latch_H (s : State) : (s.latch).H = s.H := rfl
@[simp] theorem State.latch_a (s : State) : (s.latch).a = s.heldHash 0 := rfl
@[simp] theorem State.latch_b (s : State) : (s.latch).b = s.heldHash 1 := rfl
@[simp] theorem State.latch_c (s : State) : (s.latch).c = s.heldHash 2 := rfl
@[simp] theorem State.latch_d (s : State) : (s.latch).d = s.heldHash 3 := rfl
@[simp] theorem State.latch_e (s : State) : (s.latch).e = s.heldHash 4 := rfl
@[simp] theorem State.latch_W (s : State) : (s.latch).W = s.W := rfl
@[simp] theorem State.latch_mvalid (s : State) : (s.latch).mvalid = s.mvalid := rfl
@[simp] theorem State.latch_phase (s : State) : (s.latch).phase = s.phase := rfl
@[simp] theorem State.latch_t (s : State) : (s.latch).t = s.t := rfl
@[simp] theorem State.latch_inited (s : State) : (s.latch).inited = s.inited := rfl
@[simp] theorem State.latch_dvalid (s : State) : (s.latch).dvalid = false := rfl
@[simp] theorem State.latch_err (s : State) : (s.latch).err = s.err := rfl
@[simp] theorem State.latch_ecode (s : State) : (s.latch).ecode = s.ecode := rfl
@[simp] theorem State.latch_rsp (s : State) : (s.latch).rsp = s.rsp := rfl
@[simp] theorem State.latch_inputs (s : State) : (s.latch).inputs = s.inputs := rfl
@[simp] theorem State.latch_draws (s : State) : (s.latch).draws = s.draws := rfl

/-! `State.writeSched`: one schedule word (R121). -/

@[simp] theorem State.writeSched_H (s : State) (i : Fin 80) (v : Word) : (s.writeSched i v).H = s.H := rfl
@[simp] theorem State.writeSched_a (s : State) (i : Fin 80) (v : Word) : (s.writeSched i v).a = s.a := rfl
@[simp] theorem State.writeSched_b (s : State) (i : Fin 80) (v : Word) : (s.writeSched i v).b = s.b := rfl
@[simp] theorem State.writeSched_c (s : State) (i : Fin 80) (v : Word) : (s.writeSched i v).c = s.c := rfl
@[simp] theorem State.writeSched_d (s : State) (i : Fin 80) (v : Word) : (s.writeSched i v).d = s.d := rfl
@[simp] theorem State.writeSched_e (s : State) (i : Fin 80) (v : Word) : (s.writeSched i v).e = s.e := rfl
@[simp] theorem State.writeSched_W (s : State) (i : Fin 80) (v : Word) : (s.writeSched i v).W = s.W.set i (some v) := rfl
@[simp] theorem State.writeSched_mvalid (s : State) (i : Fin 80) (v : Word) : (s.writeSched i v).mvalid = s.mvalid := rfl
@[simp] theorem State.writeSched_phase (s : State) (i : Fin 80) (v : Word) : (s.writeSched i v).phase = s.phase := rfl
@[simp] theorem State.writeSched_t (s : State) (i : Fin 80) (v : Word) : (s.writeSched i v).t = s.t := rfl
@[simp] theorem State.writeSched_inited (s : State) (i : Fin 80) (v : Word) : (s.writeSched i v).inited = s.inited := rfl
@[simp] theorem State.writeSched_dvalid (s : State) (i : Fin 80) (v : Word) : (s.writeSched i v).dvalid = s.dvalid := rfl
@[simp] theorem State.writeSched_err (s : State) (i : Fin 80) (v : Word) : (s.writeSched i v).err = s.err := rfl
@[simp] theorem State.writeSched_ecode (s : State) (i : Fin 80) (v : Word) : (s.writeSched i v).ecode = s.ecode := rfl
@[simp] theorem State.writeSched_rsp (s : State) (i : Fin 80) (v : Word) : (s.writeSched i v).rsp = s.rsp := rfl
@[simp] theorem State.writeSched_inputs (s : State) (i : Fin 80) (v : Word) : (s.writeSched i v).inputs = s.inputs := rfl
@[simp] theorem State.writeSched_draws (s : State) (i : Fin 80) (v : Word) : (s.writeSched i v).draws = s.draws := rfl

/-! `State.writeWork`: the working registers (R134). -/

@[simp] theorem State.writeWork_H (s : State) (r : Work) : (s.writeWork r).H = s.H := rfl
@[simp] theorem State.writeWork_a (s : State) (r : Work) : (s.writeWork r).a = some r.a := rfl
@[simp] theorem State.writeWork_b (s : State) (r : Work) : (s.writeWork r).b = some r.b := rfl
@[simp] theorem State.writeWork_c (s : State) (r : Work) : (s.writeWork r).c = some r.c := rfl
@[simp] theorem State.writeWork_d (s : State) (r : Work) : (s.writeWork r).d = some r.d := rfl
@[simp] theorem State.writeWork_e (s : State) (r : Work) : (s.writeWork r).e = some r.e := rfl
@[simp] theorem State.writeWork_W (s : State) (r : Work) : (s.writeWork r).W = s.W := rfl
@[simp] theorem State.writeWork_mvalid (s : State) (r : Work) : (s.writeWork r).mvalid = s.mvalid := rfl
@[simp] theorem State.writeWork_phase (s : State) (r : Work) : (s.writeWork r).phase = s.phase := rfl
@[simp] theorem State.writeWork_t (s : State) (r : Work) : (s.writeWork r).t = s.t := rfl
@[simp] theorem State.writeWork_inited (s : State) (r : Work) : (s.writeWork r).inited = s.inited := rfl
@[simp] theorem State.writeWork_dvalid (s : State) (r : Work) : (s.writeWork r).dvalid = s.dvalid := rfl
@[simp] theorem State.writeWork_err (s : State) (r : Work) : (s.writeWork r).err = s.err := rfl
@[simp] theorem State.writeWork_ecode (s : State) (r : Work) : (s.writeWork r).ecode = s.ecode := rfl
@[simp] theorem State.writeWork_rsp (s : State) (r : Work) : (s.writeWork r).rsp = s.rsp := rfl
@[simp] theorem State.writeWork_inputs (s : State) (r : Work) : (s.writeWork r).inputs = s.inputs := rfl
@[simp] theorem State.writeWork_draws (s : State) (r : Work) : (s.writeWork r).draws = s.draws := rfl

/-! `State.discardChunk`: the discarding of a chunk (R139). -/

@[simp] theorem State.discardChunk_H (s : State) : (s.discardChunk).H = s.H := rfl
@[simp] theorem State.discardChunk_a (s : State) : (s.discardChunk).a = none := rfl
@[simp] theorem State.discardChunk_b (s : State) : (s.discardChunk).b = none := rfl
@[simp] theorem State.discardChunk_c (s : State) : (s.discardChunk).c = none := rfl
@[simp] theorem State.discardChunk_d (s : State) : (s.discardChunk).d = none := rfl
@[simp] theorem State.discardChunk_e (s : State) : (s.discardChunk).e = none := rfl
@[simp] theorem State.discardChunk_W (s : State) : (s.discardChunk).W = Vector.replicate 80 none := rfl
@[simp] theorem State.discardChunk_mvalid (s : State) : (s.discardChunk).mvalid = 0 := rfl
@[simp] theorem State.discardChunk_phase (s : State) : (s.discardChunk).phase = s.phase := rfl
@[simp] theorem State.discardChunk_t (s : State) : (s.discardChunk).t = s.t := rfl
@[simp] theorem State.discardChunk_inited (s : State) : (s.discardChunk).inited = s.inited := rfl
@[simp] theorem State.discardChunk_dvalid (s : State) : (s.discardChunk).dvalid = s.dvalid := rfl
@[simp] theorem State.discardChunk_err (s : State) : (s.discardChunk).err = s.err := rfl
@[simp] theorem State.discardChunk_ecode (s : State) : (s.discardChunk).ecode = s.ecode := rfl
@[simp] theorem State.discardChunk_rsp (s : State) : (s.discardChunk).rsp = s.rsp := rfl
@[simp] theorem State.discardChunk_inputs (s : State) : (s.discardChunk).inputs = s.inputs := rfl
@[simp] theorem State.discardChunk_draws (s : State) : (s.discardChunk).draws = s.draws := rfl

/-! `State.endChunk`: the end of a chunk (R139). -/

@[simp] theorem State.endChunk_H (s : State) : (s.endChunk).H = s.H := rfl
@[simp] theorem State.endChunk_a (s : State) : (s.endChunk).a = s.a := rfl
@[simp] theorem State.endChunk_b (s : State) : (s.endChunk).b = s.b := rfl
@[simp] theorem State.endChunk_c (s : State) : (s.endChunk).c = s.c := rfl
@[simp] theorem State.endChunk_d (s : State) : (s.endChunk).d = s.d := rfl
@[simp] theorem State.endChunk_e (s : State) : (s.endChunk).e = s.e := rfl
@[simp] theorem State.endChunk_W (s : State) : (s.endChunk).W = s.W := rfl
@[simp] theorem State.endChunk_mvalid (s : State) : (s.endChunk).mvalid = s.mvalid := rfl
@[simp] theorem State.endChunk_phase (s : State) : (s.endChunk).phase = .idle := rfl
@[simp] theorem State.endChunk_t (s : State) : (s.endChunk).t = s.t := rfl
@[simp] theorem State.endChunk_inited (s : State) : (s.endChunk).inited = s.inited := rfl
@[simp] theorem State.endChunk_dvalid (s : State) : (s.endChunk).dvalid = true := rfl
@[simp] theorem State.endChunk_err (s : State) : (s.endChunk).err = s.err := rfl
@[simp] theorem State.endChunk_ecode (s : State) : (s.endChunk).ecode = s.ecode := rfl
@[simp] theorem State.endChunk_rsp (s : State) : (s.endChunk).rsp = s.rsp := rfl
@[simp] theorem State.endChunk_inputs (s : State) : (s.endChunk).inputs = s.inputs := rfl
@[simp] theorem State.endChunk_draws (s : State) : (s.endChunk).draws = s.draws := rfl

/-! `State.toReset`: reset (R37, R220). -/

@[simp] theorem State.toReset_H (s : State) : (s.toReset).H = Vector.replicate 5 none := rfl
@[simp] theorem State.toReset_a (s : State) : (s.toReset).a = none := rfl
@[simp] theorem State.toReset_b (s : State) : (s.toReset).b = none := rfl
@[simp] theorem State.toReset_c (s : State) : (s.toReset).c = none := rfl
@[simp] theorem State.toReset_d (s : State) : (s.toReset).d = none := rfl
@[simp] theorem State.toReset_e (s : State) : (s.toReset).e = none := rfl
@[simp] theorem State.toReset_W (s : State) : (s.toReset).W = Vector.replicate 80 none := rfl
@[simp] theorem State.toReset_mvalid (s : State) : (s.toReset).mvalid = 0 := rfl
@[simp] theorem State.toReset_phase (s : State) : (s.toReset).phase = .idle := rfl
@[simp] theorem State.toReset_t (s : State) : (s.toReset).t = 0 := rfl
@[simp] theorem State.toReset_inited (s : State) : (s.toReset).inited = false := rfl
@[simp] theorem State.toReset_dvalid (s : State) : (s.toReset).dvalid = false := rfl
@[simp] theorem State.toReset_err (s : State) : (s.toReset).err = false := rfl
@[simp] theorem State.toReset_ecode (s : State) : (s.toReset).ecode = 0 := rfl
@[simp] theorem State.toReset_rsp (s : State) : (s.toReset).rsp = none := rfl
@[simp] theorem State.toReset_inputs (s : State) : (s.toReset).inputs = s.inputs := rfl
@[simp] theorem State.toReset_draws (s : State) : (s.toReset).draws = s.draws := rfl

/-! `State.beginEdge`: the beginning of an edge. -/

@[simp] theorem State.beginEdge_H (s : State) : (s.beginEdge).H = s.H := rfl
@[simp] theorem State.beginEdge_a (s : State) : (s.beginEdge).a = s.a := rfl
@[simp] theorem State.beginEdge_b (s : State) : (s.beginEdge).b = s.b := rfl
@[simp] theorem State.beginEdge_c (s : State) : (s.beginEdge).c = s.c := rfl
@[simp] theorem State.beginEdge_d (s : State) : (s.beginEdge).d = s.d := rfl
@[simp] theorem State.beginEdge_e (s : State) : (s.beginEdge).e = s.e := rfl
@[simp] theorem State.beginEdge_W (s : State) : (s.beginEdge).W = s.W := rfl
@[simp] theorem State.beginEdge_mvalid (s : State) : (s.beginEdge).mvalid = s.mvalid := rfl
@[simp] theorem State.beginEdge_phase (s : State) : (s.beginEdge).phase = s.phase := rfl
@[simp] theorem State.beginEdge_t (s : State) : (s.beginEdge).t = s.t := rfl
@[simp] theorem State.beginEdge_inited (s : State) : (s.beginEdge).inited = s.inited := rfl
@[simp] theorem State.beginEdge_dvalid (s : State) : (s.beginEdge).dvalid = s.dvalid := rfl
@[simp] theorem State.beginEdge_err (s : State) : (s.beginEdge).err = s.err := rfl
@[simp] theorem State.beginEdge_ecode (s : State) : (s.beginEdge).ecode = s.ecode := rfl
@[simp] theorem State.beginEdge_rsp (s : State) : (s.beginEdge).rsp = none := rfl
@[simp] theorem State.beginEdge_inputs (s : State) : (s.beginEdge).inputs = s.inputs.tail := rfl
@[simp] theorem State.beginEdge_draws (s : State) : (s.beginEdge).draws = s.draws + 1 := rfl

end Sys2Proof.Machine
end

