-- ==== Sys2Proof/Laws/Operands.lean ====
section
/-! SUPPORT. What the operand forms (Machine/Operands.lean) and the flag computations (Machine/Flags.lean) give. -/

namespace Sys2Proof.Machine

@[simp] theorem bufferIndex_val (idx : BitVec 4) : (bufferIndex idx).val = idx.toNat := rfl

/-- `RDDIG idx` reads `H[idx]` for 0 to 4 (R50). -/
theorem digestIndex_of_lt {idx : BitVec 4} (h : idx.toNat < 5) : digestIndex idx = some ⟨idx.toNat, h⟩ := dif_pos h

/-- `RDDIG idx` reads nothing for 5 to 15 (R50). -/
theorem digestIndex_of_ge {idx : BitVec 4} (h : 5 ≤ idx.toNat) : digestIndex idx = none := dif_neg (by omega)

/-- The operands of `EXPAND` in its range (R120, R121). -/
theorem expandOperands_of_range {t : BitVec 7} (h : 16 ≤ t.toNat ∧ t.toNat ≤ 79) :
    expandOperands t = some
      { target := ⟨t.toNat, by omega⟩, back3 := ⟨t.toNat - 3, by omega⟩, back8 := ⟨t.toNat - 8, by omega⟩,
        back14 := ⟨t.toNat - 14, by omega⟩, back16 := ⟨t.toNat - 16, by omega⟩ } := dif_pos h

/-- Outside its range `EXPAND` names no word (R42, U1). -/
theorem expandOperands_of_not {t : BitVec 7} (h : ¬(16 ≤ t.toNat ∧ t.toNat ≤ 79)) : expandOperands t = none := dif_neg h

/-- The operand of `ROUND` in its range (R134). -/
theorem roundIndex_of_lt {t : BitVec 7} (h : t.toNat < 80) : roundIndex t = some ⟨t.toNat, h⟩ := dif_pos h

/-- Outside its range `ROUND` names no word (R42, U1). -/
theorem roundIndex_of_ge {t : BitVec 7} (h : 80 ≤ t.toNat) : roundIndex t = none := dif_neg (by omega)

/-- A read of an element that holds a value gives it (R14). -/
@[simp] theorem State.bitsOf_some (s : State) (el : Config.Elem) (v : Word) : s.bitsOf el (some v) = v := rfl

theorem State.readHash_of_held {s : State} {i : Fin 5} {v : Word} (h : s.H[i] = some v) : s.readHash i = v := by
  simp [State.readHash, State.heldHash, h]

theorem State.readSched_of_held {s : State} {i : Fin 80} {v : Word} (h : s.W[i] = some v) : s.readSched i = v := by
  simp [State.readSched, State.heldSched, h]

/-- The working registers read together when all five hold a value. -/
theorem State.work_of_held {s : State} {r : Work} (ha : s.a = some r.a) (hb : s.b = some r.b) (hc : s.c = some r.c)
    (hd : s.d = some r.d) (he : s.e = some r.e) : s.work = r := by
  simp [State.work, State.readWork, State.heldWork, ha, hb, hc, hd, he]

/-- Five held values are the values, each held. -/
theorem heldFive_eq (v : Vector Word 5) : heldFive v = v.map some := by
  apply Vector.ext
  intro i hi
  rcases i with _ | _ | _ | _ | _ | i <;> first | omega | simp [heldFive]

/-- The hash registers read together when all five hold a value. -/
theorem State.hash_of_held {s : State} {h : Vector Word 5} (hh : s.H = h.map some) : s.hash = h := by
  have hr : ∀ i : Fin 5, s.readHash i = h[i] := fun i => State.readHash_of_held (by simp [hh])
  apply Vector.ext
  intro i hi
  rcases i with _ | _ | _ | _ | _ | i <;> first | omega | simp [State.hash, hr]

/-- `LOADW` sets its own bit of `mvalid` and leaves the other fifteen (R102). -/
theorem getLsbD_markLoaded (m : BitVec 16) (idx : BitVec 4) (j : Nat) (hj : j < 16) :
    (markLoaded m idx).getLsbD j = (m.getLsbD j || decide (j = idx.toNat)) := by
  have hi := idx.isLt
  simp only [markLoaded, BitVec.getLsbD_or, BitVec.getLsbD_ofNat, Nat.testBit_shiftLeft, hj, decide_true, Bool.true_and]
  congr 1
  by_cases h : j = idx.toNat
  · subst h; simp
  · simp only [h, decide_false, Bool.and_eq_false_iff, decide_eq_false_iff_not]
    rcases Nat.lt_or_ge j idx.toNat with h1 | h1
    · left; omega
    · right
      have : j - idx.toNat ≠ 0 := by omega
      simp [Nat.testBit_one_eq_true_iff_self_eq_zero, this, Bool.eq_false_iff]

/-- The first code since the flag was clear is kept (R31, R198). -/
@[simp] theorem stickyCode_of_err (ecode : BitVec 3) (code : RspCode) : stickyCode true ecode code = ecode := rfl

/-- A refusal with the flag clear records its code (R193). -/
@[simp] theorem stickyCode_of_clear (ecode : BitVec 3) (code : RspCode) : stickyCode false ecode code = code.bits := rfl

/-- The bits of a code are 1 to 5 for a refusal (R191). -/
theorem RspCode.bits_eq_zero_iff (c : RspCode) : c.bits = 0 ↔ c = .ok := by cases c <;> decide

theorem RspCode.bits_le_five (c : RspCode) : c.bits.toNat ≤ 5 := by cases c <;> decide

theorem Phase.ofBits_bits (p : Phase) : Phase.ofBits p.bits = p := by cases p <;> decide

end Sys2Proof.Machine
end

