-- ==== Sys2Proof/Laws/Edge.lean ====
section
/-! SUPPORT. What one edge does, in cases (R40): cited instead of unfolding `edge`, `takeCommand` and `engine`. -/

namespace Sys2Proof.Machine

/-- An edge with `rst = 1` (R220). -/
theorem step_of_rst {s : State} (h : s.input.rst = true) : step s = .next s.beginEdge.toReset := by
  simp [step, edge, h]

/-- An idle engine performs no micro-operation (R80). -/
@[simp] theorem engine_idle (s : State) : engine .idle s = .next s := rfl

@[simp] theorem engine_expand (s : State) : engine .expand s = execExpand s := rfl

@[simp] theorem engine_round (s : State) : engine .round s = execRound s := rfl

@[simp] theorem engine_fold (s : State) : engine .fold s = execFold s := rfl

/-- An edge at which the host presents nothing is the engine's alone (R40). -/
theorem step_of_silent {s : State} (h : s.input = ⟨false, none⟩) : step s = engine s.phase s.beginEdge := by
  simp [step, edge, h, takeCommand]

/-- An edge at which a command that leaves a next state is presented (R40). -/
theorem step_of_command {s s1 : State} {w : CmdWord} (h : s.input = ⟨false, some w⟩)
    (hc : exec (decodeCmd w) s.beginEdge = .next s1) : step s = engine s.phase s1 := by
  simp [step, edge, h, takeCommand, hc]

/-- Everything a refusal does (R193): it leaves a next state that differs in `err`, `ecode` and the response only. -/
theorem refuse_eq (code : RspCode) (s : State) :
    refuse code s = .next { s with err := true, ecode := stickyCode s.err s.ecode code, rsp := some ⟨code, 0⟩ } := rfl

/-- `ROUND` in its range (R134). -/
theorem execRound_of_lt {s : State} (h : s.t.toNat < 80) :
    execRound s = .next
      (if s.t = 79 then (s.writeWork (roundFn s.t.toNat s.work (s.readSched ⟨s.t.toNat, h⟩))).moveTo .fold 0
       else (s.writeWork (roundFn s.t.toNat s.work (s.readSched ⟨s.t.toNat, h⟩))).moveTo s.phase (s.t + 1)) := by
  simp [execRound, roundIndex_of_lt h]

/-- `EXPAND` in its range (R121). -/
theorem execExpand_of_range {s : State} (h : 16 ≤ s.t.toNat ∧ s.t.toNat ≤ 79) :
    ∃ v, v = expandFn (s.readSched ⟨s.t.toNat - 3, by omega⟩) (s.readSched ⟨s.t.toNat - 8, by omega⟩)
        (s.readSched ⟨s.t.toNat - 14, by omega⟩) (s.readSched ⟨s.t.toNat - 16, by omega⟩) ∧
      execExpand s = .next
        (if s.t = 79 then (s.writeSched ⟨s.t.toNat, by omega⟩ v).moveTo .round 0
         else (s.writeSched ⟨s.t.toNat, by omega⟩ v).moveTo s.phase (s.t + 1)) := by
  refine ⟨_, rfl, ?_⟩
  simp [execExpand, expandOperands_of_range h]

/-- `EXPAND` outside its range stops (U1, log entry 5). -/
theorem execExpand_of_not {s : State} (h : ¬(16 ≤ s.t.toNat ∧ s.t.toNat ≤ 79)) :
    execExpand s = .fault .sequencerOutOfRange := by
  simp [execExpand, expandOperands_of_not h]

end Sys2Proof.Machine
end

