-- ==== Sys2Proof/Laws/Step.lean ====
section
/-! SUPPORT. Everything a command, a micro-operation and a step can do, once, in cases (R40, R41): cited instead of unfolding
`exec`, `engine` and `step`. -/

namespace Sys2Proof.Machine

/-- A command word decodes to a command, never to a micro-operation (R80, R81). -/
theorem decodeCmd_isCommand (w : CmdWord) : (decodeCmd w).isCommand = true := by
  unfold decodeCmd
  split <;> rfl

/-- Everything a command does (R100 to R107, R193), with the cause it is judged by (R196): it answers and changes nothing; it is
refused; it clears the error record; or it is an accepted `INIT`, `LOADW` or `START`. -/
theorem exec_command_cases (i : Instr) (s : State) (hi : i.isCommand = true) :
    (firstCause i s = .ok ∧ (i = .nop ∨ i = .rdstat ∨ ∃ idx, i = .rddig idx) ∧
      ∃ r, exec i s = .next (s.respond .ok r)) ∨
    (firstCause i s ≠ .ok ∧ exec i s = refuse (firstCause i s) s) ∨
    (firstCause i s = .ok ∧ i = .clrerr ∧ exec i s = .next (s.clearError.respond .ok 0)) ∨
    (firstCause i s = .ok ∧ i = .init ∧ s.phase = .idle ∧
      exec i s = .next ((s.initHash Config.params.iv).respond .ok 0)) ∨
    (firstCause i s = .ok ∧ s.phase = .idle ∧ ∃ idx data, i = .loadw idx data ∧
      exec i s = .next ((s.loadWord idx data).respond .ok 0)) ∨
    (firstCause i s = .ok ∧ i = .start ∧ s.phase = .idle ∧ s.inited = true ∧ s.mvalid = 0xFFFF ∧
      exec i s = .next ((s.latch.moveTo .expand 16).respond .ok 0)) := by
  cases i with
  | nop => exact .inl ⟨rfl, .inl rfl, 0, rfl⟩
  | rdstat => exact .inl ⟨rfl, .inr (.inl rfl), _, rfl⟩
  | clrerr => exact .inr (.inr (.inl ⟨rfl, rfl, rfl⟩))
  | reserved7 => exact .inr (.inl ⟨by simp [firstCause, illegalOp], rfl⟩)
  | reserved8to15 op => exact .inr (.inl ⟨by simp [firstCause, illegalOp], rfl⟩)
  | init =>
    by_cases h : s.phase = .idle
    · refine .inr (.inr (.inr (.inl ⟨?_, rfl, h, ?_⟩))) <;>
        simp [firstCause, illegalOp, badIndex, needsReady, needsHash, needsChunk, h, exec, execInit]
    · refine .inr (.inl ?_); simp [firstCause, illegalOp, badIndex, needsReady, h, exec, execInit]
  | loadw idx data =>
    by_cases h : s.phase = .idle
    · refine .inr (.inr (.inr (.inr (.inl ⟨?_, h, idx, data, rfl, ?_⟩)))) <;>
        simp [firstCause, illegalOp, badIndex, needsReady, needsHash, needsChunk, h, exec, execLoadw]
    · refine .inr (.inl ?_); simp [firstCause, illegalOp, badIndex, needsReady, h, exec, execLoadw]
  | start =>
    by_cases h : s.phase = .idle
    · by_cases h2 : s.inited = true
      · by_cases h3 : s.mvalid = 0xFFFF
        · refine .inr (.inr (.inr (.inr (.inr ⟨?_, rfl, h, h2, h3, ?_⟩)))) <;>
            simp [firstCause, illegalOp, badIndex, needsReady, needsHash, needsChunk, h, h2, h3, exec, execStart, chunkLoaded]
        · have h4 : ¬s.mvalid = 65535#16 := h3
          refine .inr (.inl ?_)
          simp [firstCause, illegalOp, badIndex, needsReady, needsHash, needsChunk, h, h2, h4, exec, execStart, chunkLoaded]
      · refine .inr (.inl ?_)
        simp at h2
        simp [firstCause, illegalOp, badIndex, needsReady, needsHash, h, h2, exec, execStart]
    · refine .inr (.inl ?_); simp [firstCause, illegalOp, badIndex, needsReady, h, exec, execStart]
  | rddig idx =>
    by_cases h0 : idx.toNat < 5
    · have h1 : ¬5 ≤ idx.toNat := by omega
      by_cases h : s.phase = .idle
      · by_cases h2 : s.inited = true
        · refine .inl ⟨?_, .inr (.inr ⟨idx, rfl⟩), s.readHash ⟨idx.toNat, h0⟩, ?_⟩
          · simp [firstCause, illegalOp, badIndex, needsReady, needsHash, needsChunk, h, h2, h1]
          · simp [exec, execRddig, digestIndex_of_lt h0, h, h2]
        · refine .inr (.inl ?_)
          simp at h2
          simp [firstCause, illegalOp, badIndex, needsReady, needsHash, h, h2, h1, exec, execRddig, digestIndex_of_lt h0]
      · refine .inr (.inl ?_)
        simp [firstCause, illegalOp, badIndex, needsReady, h, h1, exec, execRddig, digestIndex_of_lt h0]
    · have h1 : 5 ≤ idx.toNat := by omega
      refine .inr (.inl ?_)
      simp [firstCause, illegalOp, badIndex, h1, exec, execRddig, digestIndex_of_ge h1]
  | expand => cases hi
  | round => cases hi
  | fold => cases hi

/-- A command always leaves a next state, with a response that carries its cause (R76, R196); while the engine is busy it writes
nothing but the error record and the response (R41). -/
theorem exec_command_next (i : Instr) (s : State) (hi : i.isCommand = true) :
    ∃ c r, exec i s = .next c ∧ c.rsp = some r ∧ r.code = firstCause i s ∧
      (s.phase ≠ .idle → c = { s with err := c.err, ecode := c.ecode, rsp := c.rsp }) := by
  rcases exec_command_cases i s hi with ⟨hc, -, r, h⟩ | ⟨-, h⟩ | ⟨hc, -, h⟩ | ⟨hc, -, hp, h⟩ | ⟨hc, hp, _, _, -, h⟩ |
    ⟨hc, -, hp, -, -, h⟩
  · exact ⟨_, _, h, rfl, hc.symm, fun _ => rfl⟩
  · exact ⟨_, _, h, rfl, rfl, fun _ => rfl⟩
  · exact ⟨_, _, h, rfl, hc.symm, fun _ => rfl⟩
  · exact ⟨_, _, h, rfl, hc.symm, fun hn => absurd hp hn⟩
  · exact ⟨_, _, h, rfl, hc.symm, fun hn => absurd hp hn⟩
  · exact ⟨_, _, h, rfl, hc.symm, fun hn => absurd hp hn⟩

/-- Everything the engine does that leaves a next state (R80, R121, R134, R139). -/
theorem engine_cases {p : Phase} {s u : State} (h : engine p s = .next u) :
    (p = .idle ∧ u = s) ∨
    (p = .expand ∧ ∃ (hr : 16 ≤ s.t.toNat ∧ s.t.toNat ≤ 79) (v : Word),
      u = if s.t = 79 then (s.writeSched ⟨s.t.toNat, by omega⟩ v).moveTo .round 0
          else (s.writeSched ⟨s.t.toNat, by omega⟩ v).moveTo s.phase (s.t + 1)) ∨
    (p = .round ∧ s.t.toNat < 80 ∧ ∃ v : Work,
      u = if s.t = 79 then (s.writeWork v).moveTo .fold 0 else (s.writeWork v).moveTo s.phase (s.t + 1)) ∨
    (p = .fold ∧ u = (s.foldHash (foldSums s.hash s.work)).discardChunk.endChunk) := by
  cases p with
  | idle => cases h; exact .inl ⟨rfl, rfl⟩
  | expand =>
    refine .inr (.inl ⟨rfl, ?_⟩)
    by_cases hr : 16 ≤ s.t.toNat ∧ s.t.toNat ≤ 79
    · obtain ⟨v, _, he⟩ := execExpand_of_range hr
      rw [engine_expand, he] at h
      cases h
      exact ⟨hr, v, rfl⟩
    · rw [engine_expand, execExpand_of_not hr] at h
      cases h
  | round =>
    refine .inr (.inr (.inl ⟨rfl, ?_⟩))
    by_cases hr : s.t.toNat < 80
    · rw [engine_round, execRound_of_lt hr] at h
      cases h
      exact ⟨hr, _, rfl⟩
    · simp only [engine_round, execRound, roundIndex_of_ge (by omega : 80 ≤ s.t.toNat)] at h
      cases h
  | fold => cases h; exact .inr (.inr (.inr ⟨rfl, rfl⟩))

/-- The micro-operations do not touch the error record, the response, the model's own fields or `inited` (R41). -/
theorem engine_frame {p : Phase} {s u : State} (h : engine p s = .next u) :
    u.err = s.err ∧ u.ecode = s.ecode ∧ u.rsp = s.rsp ∧ u.inputs = s.inputs ∧ u.draws = s.draws ∧ u.inited = s.inited := by
  rcases engine_cases h with ⟨-, rfl⟩ | ⟨-, hr, v, rfl⟩ | ⟨-, -, v, rfl⟩ | ⟨-, rfl⟩
  · exact ⟨rfl, rfl, rfl, rfl, rfl, rfl⟩
  · split <;> exact ⟨rfl, rfl, rfl, rfl, rfl, rfl⟩
  · split <;> exact ⟨rfl, rfl, rfl, rfl, rfl, rfl⟩
  · exact ⟨rfl, rfl, rfl, rfl, rfl, rfl⟩

/-- The micro-operations do not read the error record and the response (R41). -/
theorem engine_of_record (p : Phase) (s : State) (x : Bool) (y : BitVec 3) (z : Option Response) :
    engine p { s with err := x, ecode := y, rsp := z } =
      match engine p s with
      | .next u => .next { u with err := x, ecode := y, rsp := z }
      | .fault f => .fault f
      | .refused r => .refused r := by
  cases p with
  | idle => rfl
  | expand =>
    simp only [engine_expand, execExpand]
    cases expandOperands s.t with
    | none => rfl
    | some o => dsimp only; split <;> rfl
  | round =>
    simp only [engine_round, execRound]
    cases roundIndex s.t with
    | none => rfl
    | some o => dsimp only; split <;> rfl
  | fold => rfl

/-- Everything a step does that leaves a next state (R40): a reset edge; an edge of the engine alone; a command to an idle core; or
a command and a micro-operation together, the command writing its record and the response only. -/
theorem step_cases {s s' : State} (h : step s = .next s') :
    (s.input.rst = true ∧ s' = s.beginEdge.toReset) ∨
    (s.input.rst = false ∧ s.input.cmd = none ∧ engine s.phase s.beginEdge = .next s') ∨
    (s.input.rst = false ∧ s.phase = .idle ∧ ∃ w, s.input.cmd = some w ∧
      exec (decodeCmd w) s.beginEdge = .next s') ∨
    (s.input.rst = false ∧ s.phase ≠ .idle ∧ ∃ w c e, s.input.cmd = some w ∧ exec (decodeCmd w) s.beginEdge = .next c ∧
      c = { s.beginEdge with err := c.err, ecode := c.ecode, rsp := c.rsp } ∧ engine s.phase s.beginEdge = .next e ∧
      s' = { e with err := c.err, ecode := c.ecode, rsp := c.rsp }) := by
  cases hin : s.input with
  | mk rst cmd =>
    cases rst with
    | true =>
      rw [step_of_rst (by rw [hin])] at h
      cases h
      exact .inl ⟨rfl, rfl⟩
    | false =>
      cases cmd with
      | none =>
        rw [step_of_silent hin] at h
        exact .inr (.inl ⟨rfl, rfl, h⟩)
      | some w =>
        obtain ⟨c, r, hx, -, -, hb⟩ := exec_command_next (decodeCmd w) s.beginEdge (decodeCmd_isCommand w)
        rw [step_of_command hin hx] at h
        by_cases hp : s.phase = .idle
        · rw [hp, engine_idle] at h
          cases h
          exact .inr (.inr (.inl ⟨rfl, hp, w, rfl, hx⟩))
        · have hc := hb hp
          rw [hc, engine_of_record] at h
          cases he : engine s.phase s.beginEdge with
          | next e =>
            rw [he] at h
            injection h with h
            exact .inr (.inr (.inr ⟨rfl, hp, w, c, e, rfl, hx, hc, rfl, h.symm⟩))
          | fault f => rw [he] at h; cases h
          | refused f => rw [he] at h; cases h

end Sys2Proof.Machine
end

