-- ==== Sys2Proof/Laws/Host.lean ====
section
/-! SUPPORT. The host's sessions: what presenting words does, in sequence and against what is listed in `inputs`; what one poll of
`WAIT` does; and that the bound of its loop is never felt. -/

namespace Sys2Proof.Machine

@[simp] theorem sessionThen_next (x : Session) (f : Session → SessionOutcome) : sessionThen (.next x) f = f x := rfl

@[simp] theorem sessionThen_fault (r : Fault) (f : Session → SessionOutcome) : sessionThen (.fault r) f = .fault r := rfl

@[simp] theorem sessionThen_refused (r : Refusal) (f : Session → SessionOutcome) :
    sessionThen (.refused r) f = .refused r := rfl

theorem sessionThen_assoc (o : SessionOutcome) (f g : Session → SessionOutcome) :
    sessionThen (sessionThen o f) g = sessionThen o fun x => sessionThen (f x) g := by
  cases o <;> rfl

@[simp] theorem sessionThen_id (o : SessionOutcome) : sessionThen o .next = o := by cases o <;> rfl

/-- Words in sequence. -/
theorem presentAll_append (a b : List CmdWord) (x : Session) :
    presentAll (a ++ b) x = sessionThen (presentAll a x) (presentAll b) := by
  induction a generalizing x with
  | nil => rfl
  | cons w a ih =>
    simp only [List.cons_append, presentAll, sessionThen_assoc]
    exact congrArg _ (funext ih)

/-- Lines in sequence. -/
theorem runLines_append (a b : List AsmLine) (x : Session) :
    runLines (a ++ b) x = sessionThen (runLines a x) (runLines b) := by
  induction a generalizing x with
  | nil => rfl
  | cons l a ih =>
    simp only [List.cons_append, runLines, sessionThen_assoc]
    exact congrArg _ (funext ih)

/-- A program of one line. -/
@[simp] theorem runLines_singleton (l : AsmLine) (x : Session) : runLines [l] x = l.run x := sessionThen_id _

/-- A program of commands presents their words. -/
theorem runLines_commands (is : List Instr) (x : Session) :
    runLines (is.map .command) x = presentAll (is.flatMap commandWords) x := by
  induction is generalizing x with
  | nil => rfl
  | cons i is ih =>
    rw [List.map_cons, List.flatMap_cons, presentAll_append, runLines]
    exact congrArg _ (funext ih)

/-- A step reads the head of `inputs` only and leaves the rest (R40, log entry 1). -/
theorem step_of_inputs (s : State) (i : Input) (l : List Input) :
    step { s with inputs := i :: l } =
      match step { s with inputs := [i] } with
      | .next u => .next { u with inputs := l }
      | .fault f => .fault f
      | .refused r => .refused r := by
  have he : ∀ (p : Phase) (u : State), engine p { u with inputs := l } =
      match engine p u with
      | .next v => .next { v with inputs := l }
      | .fault f => .fault f
      | .refused r => .refused r := by
    intro p u
    cases p with
    | idle => rfl
    | expand =>
      simp only [engine_expand, execExpand]
      cases expandOperands u.t with
      | none => rfl
      | some o => dsimp only; split <;> rfl
    | round =>
      simp only [engine_round, execRound]
      cases roundIndex u.t with
      | none => rfl
      | some o => dsimp only; split <;> rfl
    | fold => rfl
  have hx : ∀ (w : CmdWord) (u : State), exec (decodeCmd w) { u with inputs := l } =
      match exec (decodeCmd w) u with
      | .next v => .next { v with inputs := l }
      | .fault f => .fault f
      | .refused r => .refused r := by
    intro w u
    have hi := decodeCmd_isCommand w
    have hf : firstCause (decodeCmd w) { u with inputs := l } = firstCause (decodeCmd w) u := rfl
    generalize decodeCmd w = i at *
    cases i with
    | nop => rfl
    | rdstat => rfl
    | clrerr => rfl
    | reserved7 => rfl
    | reserved8to15 op => rfl
    | init => simp only [exec, execInit]; split <;> rfl
    | loadw idx data => simp only [exec, execLoadw]; split <;> rfl
    | start =>
      simp only [exec, execStart]
      split
      · rfl
      · split
        · rfl
        · split <;> rfl
    | rddig idx =>
      simp only [exec, execRddig]
      cases digestIndex idx with
      | none => rfl
      | some k =>
        dsimp only
        split
        · rfl
        · split <;> rfl
    | expand => cases hi
    | round => cases hi
    | fold => cases hi
  cases i with
  | mk rst cmd =>
    have h1 : ({ s with inputs := ⟨rst, cmd⟩ :: l } : State).beginEdge
        = { ({ s with inputs := [⟨rst, cmd⟩] } : State).beginEdge with inputs := l } := rfl
    cases rst with
    | true => rfl
    | false =>
      cases cmd with
      | none => rw [step_of_silent rfl, step_of_silent rfl, h1, he]
      | some w =>
        obtain ⟨c, _, hc, -⟩ := exec_command_next (decodeCmd w)
          ({ s with inputs := [⟨false, some w⟩] } : State).beginEdge (decodeCmd_isCommand w)
        have hc' := hx w ({ s with inputs := [⟨false, some w⟩] } : State).beginEdge
        rw [hc] at hc'
        rw [step_of_command rfl hc, step_of_command (s := { s with inputs := ⟨false, some w⟩ :: l }) rfl
          (s1 := { c with inputs := l }) (by rw [h1]; exact hc'), he]

/-- After a refusal there is no digest to use (R184). -/
theorem usableDigest_of_refusal {rs : List Response} {r : Response} (h : r ∈ rs) (hr : r.code ≠ .ok) :
    usableDigest rs = none := by
  refine if_neg fun ha => hr ?_
  simpa using List.all_eq_true.1 ha r h

/-- With every command performed the digest to use is the one `RDDIGEST` read. -/
theorem usableDigest_of_ok {rs : List Response} (h : ∀ r ∈ rs, r.code = .ok) : usableDigest rs = rddigestValue rs :=
  if_pos (List.all_eq_true.2 fun r hr => by simp [h r hr])

/-- Presenting a word is a step of the block with that word put before what is listed, which stays listed. -/
theorem present_next {w : CmdWord} {x y : Session} (h : present w x = .next y) :
    step { x.block with inputs := ⟨false, some w⟩ :: x.block.inputs } = .next y.block ∧
      y.responses = x.responses ++ y.block.rsp.toList ∧ y.block.inputs = x.block.inputs := by
  have hp : place (.cmd w) x.block = { x.block with inputs := ⟨false, some w⟩ :: x.block.inputs } := rfl
  simp only [present, hp] at h
  cases hs : step { x.block with inputs := ⟨false, some w⟩ :: x.block.inputs } with
  | next s =>
    rw [hs] at h
    cases h
    refine ⟨rfl, rfl, ?_⟩
    rw [step_of_inputs] at hs
    split at hs
    · cases hs; rfl
    · cases hs
    · cases hs
  | fault f => rw [hs] at h; cases h
  | refused r => rw [hs] at h; cases h

/-- Bit 0 of the status word is `READY` (R78). -/
theorem status_getLsbD_zero (s : State) : s.status.getLsbD 0 = s.ready := by
  have hf : ∀ b : Bool, (flagWord b).getLsbD 0 = b := by decide
  simp only [State.status, BitVec.getLsbD_or, BitVec.getLsbD_shiftLeft, hf]
  simp

/-- Everything one poll does (R84, R105): to an idle core it is answered ready; to a busy one it is answered busy, and the engine
comes one edge nearer to ready; or the engine is at a position it stops at (log entry 5). -/
theorem rdstat_cases (x : Session) :
    (x.block.phase = .idle ∧ ∃ y, presentAll (commandWords .rdstat) x = .next y ∧ y.saysReady = true ∧
      y.responses = x.responses ++ [⟨.ok, x.block.status⟩] ∧
      y.block = { x.block with rsp := some ⟨.ok, x.block.status⟩, draws := x.block.draws + 1 }) ∨
    (x.block.phase ≠ .idle ∧ ∃ y e, presentAll (commandWords .rdstat) x = .next y ∧ y.saysReady = false ∧
      y.responses = x.responses ++ [⟨.ok, x.block.status⟩] ∧
      engine x.block.phase { x.block with rsp := none, draws := x.block.draws + 1 } = .next e ∧
      y.block = { e with rsp := some ⟨.ok, x.block.status⟩ } ∧ edgesToReady y.block + 1 = edgesToReady x.block) ∨
    (x.block.phase ≠ .idle ∧ ∃ f, presentAll (commandWords .rdstat) x = .fault f) := by
  let s0 : State := { x.block with rsp := none, draws := x.block.draws + 1 }
  let z : Option Response := some ⟨.ok, x.block.status⟩
  have hstep : step (place (.cmd (cmdOf 0x5 0 0)) x.block) =
      match engine x.block.phase s0 with
      | .next u => .next { u with err := s0.err, ecode := s0.ecode, rsp := z }
      | .fault f => .fault f
      | .refused r => .refused r := by
    have hin : (place (.cmd (cmdOf 0x5 0 0)) x.block).input = ⟨false, some (cmdOf 0x5 0 0)⟩ := rfl
    have hd : decodeCmd (cmdOf 0x5 0 0) = .rdstat := by decide
    have hx : exec (decodeCmd (cmdOf 0x5 0 0)) (place (.cmd (cmdOf 0x5 0 0)) x.block).beginEdge
        = .next { s0 with err := s0.err, ecode := s0.ecode, rsp := z } := by rw [hd]; rfl
    rw [step_of_command hin hx]
    exact engine_of_record x.block.phase s0 s0.err s0.ecode z
  have hp : presentAll (commandWords .rdstat) x = present (cmdOf 0x5 0 0) x := sessionThen_id _
  rw [hp]
  simp only [present, hstep]
  have hbit : x.block.status.getLsbD 0 = decide (x.block.phase = .idle) := status_getLsbD_zero x.block
  by_cases hi : x.block.phase = .idle
  · refine .inl ⟨hi, ⟨{ s0 with rsp := z }, x.responses ++ z.toList⟩, ?_, ?_, rfl, rfl⟩
    · have he : engine x.block.phase s0 = .next s0 := by rw [hi]; rfl
      rw [he]
    · exact hbit.trans (decide_eq_true hi)
  · refine .inr ?_
    cases he : engine x.block.phase s0 with
    | next e =>
      have hfr := engine_frame he
      refine .inl ⟨hi, ⟨{ e with rsp := z }, x.responses ++ z.toList⟩, e, ?_, ?_, rfl, rfl, rfl, ?_⟩
      · have h1 : e = { e with err := s0.err, ecode := s0.ecode } := by
          rw [← hfr.1, ← hfr.2.1]
        conv_rhs => rw [h1]
      · exact hbit.trans (decide_eq_false hi)
      · rcases engine_cases he with ⟨h, -⟩ | ⟨h, hr, v, rfl⟩ | ⟨h, hr, v, rfl⟩ | ⟨h, rfl⟩
        · exact absurd h hi
        · have ht : s0.t = x.block.t := rfl
          by_cases h79 : s0.t = 79
          · have : x.block.t = 79 := h79
            simp [edgesToReady, h, h79, this, Config.params]
          · have hn : x.block.t.toNat ≠ 79 := fun hc => h79 (BitVec.eq_of_toNat_eq hc)
            have hs : s0.phase = .expand := h
            have ha : (s0.t + 1).toNat = x.block.t.toNat + 1 := by
              rw [BitVec.toNat_add, ht]
              rw [ht] at hr
              show (x.block.t.toNat + 1) % 128 = x.block.t.toNat + 1
              omega
            rw [ht] at hr
            rw [if_neg h79]
            simp only [edgesToReady, h, State.moveTo_phase, State.moveTo_t, hs, ha, Config.params]
            omega
        · have ht : s0.t = x.block.t := rfl
          by_cases h79 : s0.t = 79
          · have : x.block.t = 79 := h79
            simp [edgesToReady, h, h79, this, Config.params]
          · have hn : x.block.t.toNat ≠ 79 := fun hc => h79 (BitVec.eq_of_toNat_eq hc)
            have hs : s0.phase = .round := h
            have ha : (s0.t + 1).toNat = x.block.t.toNat + 1 := by
              rw [BitVec.toNat_add, ht]
              rw [ht] at hr
              show (x.block.t.toNat + 1) % 128 = x.block.t.toNat + 1
              omega
            rw [ht] at hr
            rw [if_neg h79]
            simp only [edgesToReady, h, State.moveTo_phase, State.moveTo_t, hs, ha, Config.params]
            omega
        · simp [edgesToReady, h, Config.params]
    | fault f => exact .inr ⟨hi, f, rfl⟩
    | refused r =>
      exfalso
      cases hph : x.block.phase with
      | idle => exact hi hph
      | expand =>
        rw [hph, engine_expand, execExpand] at he
        split at he <;> cases he
      | round =>
        rw [hph, engine_round, execRound] at he
        split at he <;> cases he
      | fold => rw [hph, engine_fold, execFold] at he; cases he

/-- A polling host needs no more polls than the engine needs edges, and one: from any state a larger bound changes nothing. -/
theorem poll_bound (n k : Nat) (x : Session) (h : edgesToReady x.block + 1 ≤ n) : poll (n + k) x = poll n x := by
  induction n generalizing x with
  | zero => omega
  | succ n ih =>
    rw [show n + 1 + k = (n + k) + 1 from by omega, poll, poll]
    rcases rdstat_cases x with ⟨-, y, hy, hr, -⟩ | ⟨hb, y, e, hy, hr, -, -, -, hk⟩ | ⟨-, f, hf⟩
    · simp [hy, hr]
    · simp only [hy, sessionThen_next, hr]
      exact ih y (by omega)
    · simp [hf]

/-- The bound in `WAIT` is never felt: the loop with any larger bound does the same, from every state (R84, R204). -/
theorem runWait_unbounded (x : Session) (k : Nat) : poll (Config.tBusy + 1 + k) x = runWait x := by
  by_cases h : edgesToReady x.block ≤ Config.tBusy
  · exact poll_bound _ k x (by omega)
  · rw [runWait, show Config.tBusy + 1 + k = (Config.tBusy + k) + 1 from by omega, poll, poll]
    rcases rdstat_cases x with ⟨hi, -⟩ | ⟨hb, y, e, hy, hr, -, he, -, -⟩ | ⟨-, f, hf⟩
    · simp [edgesToReady, hi] at h
    · exfalso
      apply h
      rcases engine_cases he with ⟨hp, -⟩ | ⟨hp, hr, -⟩ | ⟨hp, hr, -⟩ | ⟨hp, -⟩
      · exact absurd hp hb
      · have : 16 ≤ x.block.t.toNat := hr.1
        simp only [edgesToReady, hp, Config.tBusy, Config.params]
        omega
      · simp only [edgesToReady, hp, Config.tBusy, Config.params]
        omega
      · simp [edgesToReady, hp, Config.tBusy, Config.params]
    · simp [hf]

end Sys2Proof.Machine
end

