-- ==== Sys2Proof/Laws/Invariant.lean ====
section
/-! SUPPORT. What the invariant says of the elements a rule reads (R43). -/

namespace Sys2Proof.Machine

theorem exists_of_isSome {o : Option Word} {b : Bool} (h : o.isSome = b) (hb : b = true) : ∃ v, o = some v :=
  Option.isSome_iff_exists.1 (h.trans hb)

/-- All sixteen bits of a full `mvalid` are set (R25). -/
theorem getLsbD_full {m : BitVec 16} (h : m = 0xFFFF) {i : Nat} (hi : i < 16) : m.getLsbD i = true := by
  have key : ∀ k : Fin 16, (0xFFFF : BitVec 16).getLsbD k.val = true := by decide
  rw [h]
  exact key ⟨i, hi⟩

/-- An initialised core holds all five hash words (R28). -/
theorem State.Inv.hash_held {s : State} (h : s.Inv) (hi : s.inited = true) (i : Fin 5) : ∃ v, s.H[i] = some v :=
  exists_of_isSome (h.2.2.2.1 i) hi

/-- A busy core is initialised and fully loaded (R42). -/
theorem State.Inv.of_busy {s : State} (h : s.Inv) (hb : s.phase ≠ .idle) : s.inited = true ∧ s.mvalid = 0xFFFF :=
  h.2.2.1.2 hb

/-- A busy core holds its working registers (R22). -/
theorem State.Inv.work_held {s : State} (h : s.Inv) (hb : s.phase ≠ .idle) (r : Config.WorkReg) :
    ∃ v, s.heldWork r = some v := by
  have hr : (!s.ready) = true := by simp [State.ready, hb]
  obtain ⟨ha, hb', hc, hd, he⟩ := h.2.2.2.2.1
  cases r
  · exact exists_of_isSome ha hr
  · exact exists_of_isSome hb' hr
  · exact exists_of_isSome hc hr
  · exact exists_of_isSome hd hr
  · exact exists_of_isSome he hr

/-- A fully loaded core holds the sixteen words of its chunk (R25). -/
theorem State.Inv.chunk_held {s : State} (h : s.Inv) (hm : s.mvalid = 0xFFFF) (i : Fin 80) (hi : i.val < 16) :
    ∃ v, s.W[i] = some v := by
  refine exists_of_isSome (h.2.2.2.2.2 i) ?_
  rw [schedExpected, if_pos hi]
  exact getLsbD_full hm hi

/-- An expanding core holds every schedule word below `t` (R43). -/
theorem State.Inv.sched_held_of_expand {s : State} (h : s.Inv) (hp : s.phase = .expand) (i : Fin 80)
    (hi : i.val < s.t.toNat) : ∃ v, s.W[i] = some v := by
  by_cases h16 : i.val < 16
  · exact h.chunk_held (h.of_busy (by simp [hp])).2 i h16
  · refine exists_of_isSome (h.2.2.2.2.2 i) ?_
    rw [schedExpected, if_neg h16, hp]
    exact decide_eq_true hi

/-- From round 0 on a core holds all eighty schedule words (R43). -/
theorem State.Inv.sched_held_of_round {s : State} (h : s.Inv) (hp : s.phase = .round) (i : Fin 80) :
    ∃ v, s.W[i] = some v := by
  by_cases h16 : i.val < 16
  · exact h.chunk_held (h.of_busy (by simp [hp])).2 i h16
  · refine exists_of_isSome (h.2.2.2.2.2 i) ?_
    rw [schedExpected, if_neg h16, hp]

end Sys2Proof.Machine
end

