-- ==== Sys2Proof/Laws/PerInstr.lean ====
section
/-! SUPPORT. A family of facts about the instructions as syntax: the code of a well-formed instruction lies in its own row of the
opcode table (R73, R80, R85). -/

namespace Sys2Proof.Laws

/-- A command's code is a word of the CMD40 row with its mnemonic; a micro-operation's code is a phase that is not idle. -/
def TableRow.Statement (i : Instr) : Prop :=
  WellFormed i →
    match encode i with
    | .cmd w => i.isCommand = true ∧ ∃ r ∈ cmdRows, r.mnemonic = i.mnemonic ∧ r.accepts w = true
    | .phase p => i.isCommand = false ∧ p ≠ 0

/-- A word whose `op` is that of a one-operation row belongs to it (R73). -/
theorem accepts_opRow (name : String) (op idx : BitVec 4) (data : Word) :
    (CmdRow.mk name (cmdOf op 0 0) 0xF000000000).accepts (cmdOf op idx data) = true := by
  simp only [CmdRow.accepts, and_opMask, opField_cmdOf, beq_self_eq_true]

theorem TableRow.nop : Statement .nop := fun _ => ⟨rfl, by decide⟩
theorem TableRow.init : Statement .init := fun _ => ⟨rfl, by decide⟩

theorem TableRow.loadw (idx : BitVec 4) (data : Word) : Statement (.loadw idx data) := fun _ =>
  ⟨rfl, ⟨"LOADW", 0x2000000000, 0xF000000000⟩, by decide, rfl, accepts_opRow "LOADW" 2 idx data⟩

theorem TableRow.start : Statement .start := fun _ => ⟨rfl, by decide⟩

theorem TableRow.rddig (idx : BitVec 4) : Statement (.rddig idx) := fun _ =>
  ⟨rfl, ⟨"RDDIG", 0x4000000000, 0xF000000000⟩, by decide, rfl, accepts_opRow "RDDIG" 4 idx 0⟩

theorem TableRow.rdstat : Statement .rdstat := fun _ => ⟨rfl, by decide⟩
theorem TableRow.clrerr : Statement .clrerr := fun _ => ⟨rfl, by decide⟩
theorem TableRow.reserved7 : Statement .reserved7 := fun _ => ⟨rfl, by decide⟩

/-- The second reserved row takes every word whose `op` is 8 to 15 (R85). -/
theorem accepts_reserved : ∀ op : BitVec 4, 8 ≤ op.toNat →
    (CmdRow.mk "RESERVED_8_15" 0x8000000000 0x8000000000).accepts (cmdOf op 0 0) = true := by decide

theorem TableRow.reserved8to15 (op : BitVec 4) : Statement (.reserved8to15 op) := fun h =>
  ⟨rfl, ⟨"RESERVED_8_15", 0x8000000000, 0x8000000000⟩, by decide, rfl, accepts_reserved op (of_decide_eq_true h)⟩

theorem TableRow.expand : Statement .expand := fun _ => ⟨rfl, by decide⟩
theorem TableRow.round : Statement .round := fun _ => ⟨rfl, by decide⟩
theorem TableRow.fold : Statement .fold := fun _ => ⟨rfl, by decide⟩

end Sys2Proof.Laws
end

