-- ==== Sys2Proof/Tests/Slice0.lean ====
section
/-! SUPPORT. The model's own tests. Expected values are those of spec/95_test_vectors.md, spec/30_encoding.md and
spec/opcode_table.json, cited at each theorem; none is an output of the model. Then one witness for the hypotheses of each
statement. -/

namespace Sys2Proof.Tests

open Sys2Proof Sys2Proof.Machine

/-! ### Small states -/

/-- The schedule store with the words listed in its first places and no value above. -/
def storeOf (ws : List Word) : Vector (Option Word) 80 :=
  ⟨((ws.map some ++ List.replicate 80 none).take 80).toArray, by simp⟩

/-- Five values, each held. -/
def five (x0 x1 x2 x3 x4 : Word) : Vector (Option Word) 5 := #v[some x0, some x1, some x2, some x3, some x4]

/-- The initial hash state, as a vector of words (R8). -/
def iv : Vector Word 5 := #v[0x67452301, 0xEFCDAB89, 0x98BADCFE, 0x10325476, 0xC3D2E1F0]

/-- The chunk of "abc" (spec/95 section 3). -/
def abcChunk : Vector Word 16 := #v[0x61626380, 0, 0, 0, 0, 0, 0, 0, 0, 0, 0, 0, 0, 0, 0, 0x18]

/-- `S_init` of spec/95 section 6. -/
def sInit : State := { State.reset with H := five 0x67452301 0xEFCDAB89 0x98BADCFE 0x10325476 0xC3D2E1F0, inited := true }

/-- `S_full` of spec/95 section 6. -/
def sFull : State := { sInit with W := storeOf abcChunk.toList, mvalid := 0xFFFF }

/-- `S_done` of spec/95 section 6. -/
def sDone : State :=
  { State.reset with H := five 0xA9993E36 0x4706816A 0xBA3E2571 0x7850C26C 0x9CD0D89D, inited := true, dvalid := true }

/-- A busy state of the chunk of "abc" with these words in the schedule store. -/
def busy (p : Phase) (t : BitVec 7) (ws : List Word) (r : Work) : State :=
  { sFull with
    phase := p, t := t, W := storeOf ws
    a := some r.a, b := some r.b, c := some r.c, d := some r.d, e := some r.e }

/-- The working registers latched from the initial hash state. -/
def w0 : Work := ⟨0x67452301, 0xEFCDAB89, 0x98BADCFE, 0x10325476, 0xC3D2E1F0⟩

/-- The first busy state: `EXPAND`, `t = 16` (spec/95 section 6, edge s). -/
def sExpand : State := busy .expand 16 abcChunk.toList w0

/-- The last `EXPAND`, with words of zero (a state of the invariant, not one of "abc"). -/
def sExpandLast : State := busy .expand 79 (List.replicate 79 0) w0

/-- The first `ROUND` of a chunk whose first word is that of "abc" and whose others are zero. -/
def sRound : State := busy .round 0 (0x61626380 :: List.replicate 79 0) w0

/-- The last `ROUND` of "abc": the row after round 78 of spec/95 section 4.1, and `W[79]` of its section 3. -/
def sRoundLast : State :=
  busy .round 79 (List.replicate 79 0 ++ [0x822E0879]) ⟨0x5738D5E1, 0x860D21CC, 0x681E6DF6, 0xD8FDF6AD, 0xD7B9DA25⟩

/-- `S_fold` of spec/95 section 6, with the working registers after round 79. -/
def sFold : State :=
  busy .fold 0 (List.replicate 80 0) ⟨0x42541B35, 0x5738D5E1, 0x21834873, 0x681E6DF6, 0xD8FDF6AD⟩

/-- A state at whose next edge the host presents this word. -/
def given (s : State) (w : CmdWord) : State := { s with inputs := [⟨false, some w⟩] }

/-- A field of the next state, if there is one. -/
def after {α : Type} (o : Host.Outcome State Fault Refusal) (f : State → α) : Option α :=
  match o with
  | .next s => some (f s)
  | .fault _ => none
  | .refused _ => none

/-- The response and the status word of spec/95's tables. -/
def answer (s : State) : Option Response × Word := (s.rsp, s.status)

/-- The working registers held. -/
def works (s : State) : List (Option Word) := [s.a, s.b, s.c, s.d, s.e]

/-! ### Well-formedness and decoding -/

/-- R85: 8 is the least operation code of the row RESERVED_8_15; 7 and 3 belong to other rows. -/
theorem test_illFormed_refused :
    ¬WellFormed (.reserved8to15 0x3) ∧ ¬WellFormed (.reserved8to15 0x7) ∧ WellFormed (.reserved8to15 0x8) := by decide

-- Words written out bit by bit from the `encoding` strings of spec/opcode_table.json: op, idx, data.
theorem test_decode_nop : decodeCmd 0b0000_0111_00010010001101000101011001111000 = .nop := by decide
theorem test_decode_init : decodeCmd 0b0001_1111_11111111111111111111111111111111 = .init := by decide
theorem test_decode_loadw : decodeCmd 0b0010_1010_10000000000000000000000000000001 = .loadw 10 0x80000001 := by decide
theorem test_decode_start : decodeCmd 0b0011_1010_00010010001101000101011001111000 = .start := by decide
theorem test_decode_rddig : decodeCmd 0b0100_0001_11001010111111101111000000001101 = .rddig 1 := by decide
theorem test_decode_rdstat : decodeCmd 0b0101_0000_00000000000000000000000000000000 = .rdstat := by decide
theorem test_decode_clrerr : decodeCmd 0b0110_0000_00000000000000000000000000000000 = .clrerr := by decide
theorem test_decode_reserved7 : decodeCmd 0b0111_0011_00000000000000000001001000110100 = .reserved7 := by decide
theorem test_decode_reserved8 : decodeCmd 0b1000_0000_00000000000000000000000000000001 = .reserved8to15 8 := by decide
theorem test_decode_reserved12 : decodeCmd 0b1100_0000_00000000000000000000000000000000 = .reserved8to15 12 := by decide
theorem test_decode_expand : decode (.phase 0b01) = .ok .expand := by decide
theorem test_decode_round : decode (.phase 0b10) = .ok .round := by decide
theorem test_decode_fold : decode (.phase 0b11) = .ok .fold := by decide
theorem test_decode_idle : decode (.phase 0b00) = .error .idlePhase := by decide

/-- R72, R83: the word an assembler emits for `LOADW 15, 0x00000018` (spec/95 section 6). -/
theorem test_encode_loadw : encode (.loadw 15 0x00000018) = .cmd 0x2F00000018 := by decide

/-- The table's words (match columns of spec/opcode_table.json). -/
theorem test_tableWords :
    decodeTableWord 40 0x3000000000 = some .start ∧ decodeTableWord 40 0x8000000000 = some (.reserved8to15 8) ∧
      decodeTableWord 8 2 = some .round ∧ decodeTableWord 2 3 = some .fold ∧ decodeTableWord 8 0 = none := by decide

/-- The next step runs the command placed: `INIT` from reset (spec/95, INIT row 1). -/
theorem test_placed_command :
    after (step (State.reset.withFetchWord 40 0x1000000000)) answer = some (some ⟨.ok, 0⟩, 0x00000005) := by decide

/-- The next step runs the micro-operation placed: `FOLD` leaves the core idle (R139). -/
theorem test_placed_microOperation :
    after (step (State.reset.withFetchWord 8 3)) (fun s => (s.phase, s.dvalid)) = some (.idle, true) := by decide

/-! ### The commands (spec/95 section 6) -/

theorem test_nop_ignoresUnusedFields :
    after (step (given sDone 0x0712345678)) answer = some (some ⟨.ok, 0⟩, 0x00000007) := by decide
theorem test_nop_whileBusy :
    after (step (given sExpand 0x0000000000)) answer = some (some ⟨.ok, 0⟩, 0xFFFF0004) := by decide
theorem test_init_discardsDigest :
    after (step (given sDone 0x1000000000)) (fun s => (answer s, s.H)) =
      some ((some ⟨.ok, 0⟩, 0x00000005), five 0x67452301 0xEFCDAB89 0x98BADCFE 0x10325476 0xC3D2E1F0) := by decide
theorem test_init_atFold :
    after (step (given sFold 0x1000000000)) (fun s => (answer s, s.H)) =
      some ((some ⟨.errBusy, 0⟩, 0x0000003F), five 0xA9993E36 0x4706816A 0xBA3E2571 0x7850C26C 0x9CD0D89D) := by decide
theorem test_loadw_lastWord :
    after (step (given sInit 0x2F00000018)) (fun s => (answer s, s.W[15], s.W[14])) =
      some ((some ⟨.ok, 0⟩, 0x80000005), some 0x00000018, none) := by decide
theorem test_loadw_busy :
    after (step (given sExpand 0x2000000000)) (fun s => (answer s, s.W[0])) =
      some ((some ⟨.errBusy, 0⟩, 0xFFFF003C), some 0x61626380) := by decide
theorem test_start_accepted :
    after (step (given sFull 0x3A12345678)) (fun s => (answer s, works s, s.phase, s.t)) =
      some ((some ⟨.ok, 0⟩, 0xFFFF0004),
        [some 0x67452301, some 0xEFCDAB89, some 0x98BADCFE, some 0x10325476, some 0xC3D2E1F0], .expand, 16) := by decide
theorem test_start_noinitFirst :
    after (step (given State.reset 0x3000000000)) answer = some (some ⟨.errNoinit, 0⟩, 0x00000049) := by decide
theorem test_rddig_ignoresData :
    after (step (given sDone 0x41CAFEF00D)) answer = some (some ⟨.ok, 0x4706816A⟩, 0x00000007) := by decide
theorem test_rddig_indexFirst :
    after (step (given sExpand 0x4900000000)) answer = some (some ⟨.errIndex, 0⟩, 0xFFFF002C) := by decide
theorem test_rdstat_atFold :
    after (step (given sFold 0x5000000000)) answer = some (some ⟨.ok, 0xFFFF0004⟩, 0x00000007) := by decide
theorem test_rdstat_afterRefusal :
    after (step (given { sDone with err := true, ecode := 1 } 0x5000000000)) answer =
      some (some ⟨.ok, 0x0000001F⟩, 0x0000001F) := by decide
theorem test_clrerr_whileBusy :
    after (step (given { sExpand with err := true, ecode := 3 } 0x6000000000)) answer =
      some (some ⟨.ok, 0⟩, 0xFFFF0004) := by decide
theorem test_reserved7_first :
    after (step (given State.reset 0x7000000000)) answer = some (some ⟨.errIllegal, 0⟩, 0x00000019) := by decide
theorem test_reserved8_beforeBusy :
    after (step (given sExpand 0x8000000001)) answer = some (some ⟨.errIllegal, 0⟩, 0xFFFF001C) := by decide

/-- The first code is kept (spec/95, sticky error, edge 3). -/
theorem test_reserved12_firstCodeKept :
    after (step (given { State.reset with err := true, ecode := 4 } 0xC000000000)) answer =
      some (some ⟨.errIllegal, 0⟩, 0x00000049) := by decide

/-! ### The micro-operations (spec/95 section 6, engine boundaries) -/

theorem test_expand_first :
    after (step sExpand) (fun s => (s.W[16], s.W[17], s.phase, s.t, s.rsp)) =
      some (some 0xC2C4C700, none, .expand, 17, none) := by decide
theorem test_expand_last :
    after (step sExpandLast) (fun s => (s.phase, s.t, s.status)) = some (.round, 0, 0xFFFF0004) := by decide
theorem test_round_first :
    after (step sRound) (fun s => (works s, s.phase, s.t)) =
      some ([some 0x0116FC33, some 0x67452301, some 0x7BF36AE2, some 0x98BADCFE, some 0x10325476], .round, 1) := by decide
theorem test_round_last :
    after (step sRoundLast) (fun s => (works s, s.phase, s.t)) =
      some ([some 0x42541B35, some 0x5738D5E1, some 0x21834873, some 0x681E6DF6, some 0xD8FDF6AD], .fold, 0) := by decide
theorem test_fold_hash :
    after (step sFold) (fun s => (s.H, works s, s.status)) =
      some (five 0xA9993E36 0x4706816A 0xBA3E2571 0x7850C26C 0x9CD0D89D, [none, none, none, none, none], 0x00000007) := by
  decide
theorem test_fold_discardsSchedule :
    after (step sFold) (fun s => (s.W[0], s.W[79], s.mvalid, s.phase)) = some (none, none, 0, .idle) := by decide

/-! ### The arithmetic (spec/95 sections 2 and 3) -/

theorem test_rotl :
    rotl 0x80000000 1 = 0x00000001 ∧ rotl 0x00000001 31 = 0x80000000 ∧ rotl 0xDEADBEEF 0 = 0xDEADBEEF ∧
      rotl 0x12345678 28 = 0x81234567 ∧ rotl 0xEFCDAB89 30 = 0x7BF36AE2 ∧ rotl 0xDEADBEEF 13 = 0xB7DDFBD5 := by decide
theorem test_mixFn :
    mixFn 19 0xFFFF0000 0x12345678 0x9ABCDEF0 = 0x1234DEF0 ∧ mixFn 20 0xFFFF0000 0x12345678 0x9ABCDEF0 = 0x77778888 ∧
      mixFn 59 0xFFFF0000 0x12345678 0x9ABCDEF0 = 0x9ABC5670 ∧ mixFn 60 0xFFFF0000 0x12345678 0x9ABCDEF0 = 0x77778888 := by
  decide
theorem test_roundConstant :
    roundConstant 19 = 0x5A827999 ∧ roundConstant 20 = 0x6ED9EBA1 ∧ roundConstant 40 = 0x8F1BBCDC ∧
      roundConstant 79 = 0xCA62C1D6 := by decide
theorem test_expandFn : expandFn 0xE6E60B69 0x458546F4 0x000F0000 0x627B49A1 = 0x822E0879 := by decide
theorem test_schedule_lastWords :
    (schedule abcChunk).drop 72 =
      [0xB8599DD6, 0x380A1A26, 0x01E02203, 0xE7CC3456, 0xE6E60B69, 0x00F60A00, 0x5795EF4F, 0x822E0879] := by
  decide +kernel

/-! ### The host's side (spec/95 sections 1, 4.2 and 5) -/

theorem test_digest_empty : digestOfMessage [] = .ok 0xda39a3ee5e6b4b0d3255bfef95601890afd80709 := by decide +kernel
theorem test_digest_abc :
    digestOfMessage [0x61, 0x62, 0x63] = .ok 0xa9993e364706816aba3e25717850c26c9cd0d89d := by decide +kernel
theorem test_digest_twoChunks :
    digestOfMessage (List.replicate 56 0x61) = .ok 0xc2db330f6083854c99d4b5bfb6e8f29f201be699 := by decide +kernel
theorem test_chunkCounts :
    numChunks 55 = 1 ∧ numChunks 56 = 2 ∧ numChunks 64 = 2 ∧ numChunks 119 = 2 ∧ numChunks 120 = 3 := by decide
theorem test_padding :
    zeroBytes 55 = 0 ∧ zeroBytes 56 = 63 ∧ zeroBits 119 = 7 ∧ zeroBits 120 = 511 ∧ zeroBytes 64 = 55 := by decide
theorem test_chunk_abc : chunksOf [0x61, 0x62, 0x63] = [abcChunk] := by decide +kernel

/-- R83: the text of a command, an index in decimal and data in eight hexadecimal digits. -/
theorem test_text_loadw : instrText (.loadw 15 0x00000018) = "LOADW 15, 0x00000018" := by decide

/-- What the host is answered while it carries out a line. -/
def answers (l : AsmLine) (s : State) : Option (List Response) :=
  match l.run ⟨s, []⟩ with
  | .next x => some x.responses
  | .fault _ => none
  | .refused _ => none

/-- R84, R105: one poll of an idle core is enough; at the `FOLD` edge it takes two (spec/95, RDSTAT rows `S_done`, `S_fold`). -/
theorem test_wait_polls :
    answers .wait sDone = some [⟨.ok, 0x00000007⟩] ∧
      answers .wait sFold = some [⟨.ok, 0xFFFF0004⟩, ⟨.ok, 0x00000007⟩] := by
  decide +kernel

/-- `HASHBLK` on a core that is not initialised: `START` is refused, and one poll ends the `WAIT` (spec/95, START row 9). -/
theorem test_hashblk_refusedStart :
    (answers (.hashblk abcChunk) State.reset).map (fun rs => (rs.length, rs.drop 16)) =
      some (18, [⟨.errNoinit, 0⟩, ⟨.ok, 0xFFFF0049⟩]) := by
  decide +kernel

/-- `RDDIGEST` reads the digest, most significant word first (spec/95, RDDIG rows). -/
theorem test_rddigest :
    (answers .rddigest sDone).bind rddigestValue = some 0xa9993e364706816aba3e25717850c26c9cd0d89d := by
  decide +kernel

/-- No digest where one of the five reads is refused, nor where an earlier command was (R184). -/
theorem test_usableDigest_refused :
    (answers .rddigest State.reset).bind rddigestValue = none ∧
      usableDigest [⟨.errBusy, 0⟩, ⟨.ok, 1⟩, ⟨.ok, 2⟩, ⟨.ok, 3⟩, ⟨.ok, 4⟩, ⟨.ok, 5⟩] = none := by
  decide +kernel

/-! ### Witnesses: concrete states and operands that meet the hypotheses of each statement, named after it -/

/-- There is a next state. -/
def isNext (o : Host.Outcome State Fault Refusal) : Bool := (after o (fun _ => ())).isSome

theorem exists_of_isNext {o : Host.Outcome State Fault Refusal} (h : isNext o = true) : ∃ s, o = .next s := by
  cases o with
  | next s => exact ⟨s, rfl⟩
  | fault _ => cases h
  | refused _ => cases h

/-- A host that presents nothing, or only commands without `rst`, asserts no `rst`. -/
theorem noReset_of_all {s : State} {n : Nat} (h : s.inputs.all (fun x => !x.rst) = true) : s.NoResetFor n := by
  intro k x _ hx
  have := List.all_eq_true.1 h x (List.mem_of_getElem? hx)
  simpa using this

/-- The states at the boundaries of the sequencer's legal positions (R42) all meet the invariant. -/
theorem witness_Inv :
    sInit.Inv ∧ sFull.Inv ∧ sDone.Inv ∧ sExpand.Inv ∧ sExpandLast.Inv ∧ sRound.Inv ∧ sRoundLast.Inv ∧ sFold.Inv := by
  refine ⟨?_, ?_, ?_, ?_, ?_, ?_, ?_, ?_⟩ <;> decide +kernel

theorem witness_ResetOverridesEverything :
    ({ sRound with inputs := [⟨true, some 0x1000000000⟩] } : State).input.rst = true := by decide

/-- InvariantKeptByEveryStep and NoStepStopsUnderTheInvariant: a step from an idle, an expanding, a round and the fold state, each
with a command presented. -/
theorem witness_InvariantKeptByEveryStep :
    ((given sFull 0x3000000000).Inv ∧ ∃ s', step (given sFull 0x3000000000) = .next s') ∧
    ((given sExpandLast 0x7000000000).Inv ∧ ∃ s', step (given sExpandLast 0x7000000000) = .next s') ∧
    ((given sRoundLast 0x2000000000).Inv ∧ ∃ s', step (given sRoundLast 0x2000000000) = .next s') ∧
    ((given sFold 0x1000000000).Inv ∧ ∃ s', step (given sFold 0x1000000000) = .next s') := by
  refine ⟨⟨?_, exists_of_isNext ?_⟩, ⟨?_, exists_of_isNext ?_⟩, ⟨?_, exists_of_isNext ?_⟩, ⟨?_, exists_of_isNext ?_⟩⟩ <;>
    decide +kernel

/-- An idle core that may be started, both ends of `EXPAND`, a round, the fold, and a core that may be read; each initialised. -/
theorem witness_NoRuleReadsAnElementWithoutAValue :
    ((given sFull 0x3000000000).Inv ∧ sExpand.Inv ∧ sExpandLast.Inv ∧ sRoundLast.Inv ∧ sFold.Inv ∧
      (given sDone 0x4400000000).Inv) ∧
    ((given sFull 0x3000000000).inited = true ∧ sExpand.inited = true ∧ (given sDone 0x4400000000).inited = true) ∧
    ∃ s', exec .start (given sFull 0x3000000000) = .next s' ∧ s'.rsp = some ⟨.ok, 0⟩ := by
  have h := witness_Inv
  exact ⟨⟨h.2.1, h.2.2.2.1, h.2.2.2.2.1, h.2.2.2.2.2.2.1, h.2.2.2.2.2.2.2, h.2.2.1⟩, ⟨rfl, rfl, rfl⟩, _, rfl, rfl⟩

/-- The longest and the shortest wait. -/
theorem witness_BusyEndsWithinTBusy :
    (sExpand.Inv ∧ sExpand.NoResetFor (edgesToReady sExpand) ∧ edgesToReady sExpand = 145) ∧
    (sFold.Inv ∧ sFold.NoResetFor (edgesToReady sFold) ∧ edgesToReady sFold = 1) :=
  ⟨⟨witness_Inv.2.2.2.1, noReset_of_all rfl, rfl⟩, ⟨witness_Inv.2.2.2.2.2.2.2, noReset_of_all rfl, rfl⟩⟩

/-- The host presents `START` and then a word that is refused, at an edge where the engine works. -/
def sStarting : State := { sFull with inputs := [⟨false, some 0x3000000000⟩, ⟨false, some 0x1000000000⟩] }

theorem starting_accepts : sStarting.AcceptsStart := ⟨⟨rfl, 0x3000000000, rfl, by decide⟩, rfl, rfl, rfl⟩

/-- EdgeCountsOfAChunk and ChunkIsCompressed. -/
theorem witness_ChunkIsCompressed :
    sStarting.AcceptsStart ∧ sStarting.NoResetFor 146 ∧ sStarting.H = iv.map some ∧
      ∀ i : Fin 16, sStarting.W[i.val] = some abcChunk[i] := by
  refine ⟨starting_accepts, noReset_of_all rfl, by decide +kernel, by decide +kernel⟩

theorem witness_BusyEngineIgnoresTheHost :
    sExpand.Inv ∧ 145 ≤ edgesToReady sExpand ∧ ({ sExpand with inputs := [] } : State).NoResetFor 145 ∧
      ({ sExpand with inputs := [⟨false, some 0x1000000000⟩] } : State).NoResetFor 145 :=
  ⟨witness_Inv.2.2.2.1, by decide, noReset_of_all rfl, noReset_of_all rfl⟩

theorem witness_StepRunsTheDecodedInstruction :
    ((given sInit 0x2F00000018).input = ⟨false, some 0x2F00000018⟩ ∧ (given sInit 0x2F00000018).phase = .idle ∧
      decode (.cmd 0x2F00000018) = .ok (.loadw 15 0x00000018)) ∧
    (sFold.input = ⟨false, none⟩ ∧ decode (.phase sFold.phase.bits) = .ok .fold) := by decide

theorem witness_SilentIdleEdgeChangesNothing : sDone.input = ⟨false, none⟩ ∧ sDone.phase = .idle := by decide

theorem witness_CommandAndMicroOperationAreDisjoint :
    (given sFold 0x1000000000).input = ⟨false, some 0x1000000000⟩ ∧
      decode (.phase (given sFold 0x1000000000).phase.bits) = .ok .fold ∧
      ∃ e, exec .fold { given sFold 0x1000000000 with inputs := [], rsp := none, draws := 1 } = .next e :=
  ⟨by decide, by decide, exists_of_isNext (by decide +kernel)⟩

/-- Every clause of SequencerMovesOnlyAsStated, at the ends of its range. -/
theorem witness_SequencerMovesOnlyAsStated :
    (({ sRound with inputs := [⟨true, none⟩] } : State).SequencerOk ∧
      ({ sRound with inputs := [⟨true, none⟩] } : State).input.rst = true) ∧
    (sStarting.SequencerOk ∧ sStarting.AcceptsStart) ∧ (sInit.SequencerOk ∧ sInit.phase = .idle ∧ ¬sInit.AcceptsStart) ∧
    (sExpand.SequencerOk ∧ sExpand.t.toNat < 79) ∧ (sExpandLast.SequencerOk ∧ sExpandLast.t.toNat = 79) ∧
    (sRound.SequencerOk ∧ sRound.t.toNat < 79) ∧ (sRoundLast.SequencerOk ∧ sRoundLast.t.toNat = 79) ∧
    (sFold.SequencerOk ∧ sFold.phase = .fold) :=
  ⟨by decide, ⟨by decide, starting_accepts⟩, ⟨by decide, rfl, fun h => absurd h.2.2.2 (by decide)⟩, by decide, by decide,
    by decide, by decide, by decide⟩

/-- A next state of each kind of edge SequencerMovesOnlyAsStated, FlagsChangeOnlyAsStated, HashStateHolds and
ScheduleAndWorkingRegistersHold speak of. -/
theorem witness_steps :
    (∃ s', step { sRound with inputs := [⟨true, none⟩] } = .next s') ∧ (∃ s', step sStarting = .next s') ∧
    (∃ s', step sInit = .next s') ∧ (∃ s', step sExpand = .next s') ∧ (∃ s', step sExpandLast = .next s') ∧
    (∃ s', step sRound = .next s') ∧ (∃ s', step sRoundLast = .next s') ∧ (∃ s', step sFold = .next s') := by
  refine ⟨?_, ?_, ?_, ?_, ?_, ?_, ?_, ?_⟩ <;> exact exists_of_isNext (by decide +kernel)

/-- FlagsChangeOnlyAsStated: `CLRERR` presented; a first refusal; a later one. -/
theorem witness_FlagsChangeOnlyAsStated :
    ((given sDone 0x6000000000).Presents .clrerr ∧ ∃ s', step (given sDone 0x6000000000) = .next s') ∧
    (∃ s', step (given State.reset 0x3000000000) = .next s' ∧ s'.rsp = some ⟨.errNoinit, 0⟩ ∧ State.reset.err = false) ∧
    (∃ s', step (given { sDone with err := true, ecode := 1 } 0x4500000000) = .next s' ∧ Response.Refused s'.rsp) :=
  ⟨⟨⟨rfl, 0x6000000000, rfl, by decide⟩, exists_of_isNext (by decide +kernel)⟩, ⟨_, rfl, rfl, rfl⟩,
    ⟨_, rfl, _, rfl, by decide⟩⟩

/-- HashStateHolds and ScheduleAndWorkingRegistersHold: a `LOADW` of another word; an expanding edge. -/
theorem witness_HashStateHolds :
    ((given sInit 0x2F00000018).input.rst = false ∧ ¬(given sInit 0x2F00000018).AcceptsInit ∧
      (given sInit 0x2F00000018).phase ≠ .fold ∧ ¬(given sInit 0x2F00000018).AcceptsStart) ∧
    (∀ data, ¬(given sInit 0x2F00000018).AcceptsLoadw 0 data) ∧
    (sExpand.input.rst = false ∧ sExpand.phase ≠ .fold ∧ ¬(sExpand.phase = .expand ∧ sExpand.t.toNat = (79 : Fin 80).val)) := by
  have key : ∀ i, (given sInit 0x2F00000018).Presents i → i = .loadw 15 0x00000018 := by
    rintro i ⟨_, w, hw, rfl⟩
    have : (0x2F00000018 : CmdWord) = w := by simpa [given, State.input] using hw
    subst this; decide
  refine ⟨⟨by decide, fun h => ?_, by decide, fun h => ?_⟩, fun data h => ?_, by decide⟩
  · exact absurd (key _ h.1) (by decide)
  · exact absurd (key _ h.1) (by decide)
  · have := key _ h.1
    simp at this

/-- EveryCommandIsAnsweredAtItsEdge: legal positions; a `RDDIG 4`, a `RDSTAT`, a refused word presented; no command. -/
theorem witness_EveryCommandIsAnsweredAtItsEdge :
    ((given sDone 0x4400000000).SequencerOk ∧ (given sDone 0x4400000000).Presents (.rddig 4) ∧
      (given sDone 0x4400000000).H[4] = some 0x9CD0D89D) ∧
    ((given sFold 0x5000000000).SequencerOk ∧ (given sFold 0x5000000000).Presents .rdstat) ∧
    ((given sExpand 0x7000000000).SequencerOk ∧ (given sExpand 0x7000000000).Presents .reserved7) ∧
    (sExpand.SequencerOk ∧ sExpand.input.cmd = none) :=
  ⟨⟨by decide, ⟨rfl, 0x4400000000, rfl, by decide⟩, by decide⟩, ⟨by decide, ⟨rfl, 0x5000000000, rfl, by decide⟩⟩,
    ⟨by decide, ⟨rfl, 0x7000000000, rfl, by decide⟩⟩, by decide⟩

/-- RefusalCodeIsTheFirstCause and ErrorFlagBlocksNothing: every row of the command table is a command. -/
theorem witness_isCommand :
    Instr.isCommand .start = true ∧ Instr.isCommand (.rddig 5) = true ∧ Instr.isCommand (.reserved8to15 15) = true := by
  decide

/-- RefusalHasNoOtherEffect and RepeatedRefusalIsTheSame: `START` in the state after reset; `RDDIG 5` with the flag set. -/
theorem witness_RefusalHasNoOtherEffect :
    (Instr.isCommand .start = true ∧
      ∃ s' r, exec .start State.reset = .next s' ∧ s'.rsp = some r ∧ r.code ≠ .ok) ∧
    (Instr.isCommand (.rddig 5) = true ∧
      ∃ s' r, exec (.rddig 5) { sDone with err := true, ecode := 1 } = .next s' ∧ s'.rsp = some r ∧ r.code ≠ .ok) :=
  ⟨⟨rfl, _, ⟨.errNoinit, 0⟩, rfl, rfl, by decide⟩, ⟨rfl, _, ⟨.errIndex, 0⟩, rfl, rfl, by decide⟩⟩

/-- The second clause of RefusalHasNoOtherEffect: an `INIT` refused at the `FOLD` edge, and that edge without a command. -/
theorem witness_RefusalHasNoOtherEffect_step :
    (given sFold 0x1000000000).input = ⟨false, some 0x1000000000⟩ ∧
      (∃ e, step { given sFold 0x1000000000 with inputs := ⟨false, none⟩ :: (given sFold 0x1000000000).inputs.tail } = .next e) ∧
      ∃ s', step (given sFold 0x1000000000) = .next s' ∧ s'.rsp = some ⟨.errBusy, 0⟩ :=
  ⟨by decide, exists_of_isNext (by decide +kernel), ⟨_, rfl, rfl⟩⟩

/-- The words and the states of the command statements, clause by clause: `op` fields; idle, busy, not initialised, incomplete;
`idx` at 0, 4, 5 and 15. -/
theorem witness_commandStatements :
    (BitVec.extractLsb' 36 4 (0x0712345678 : CmdWord) = 0x0 ∧ BitVec.extractLsb' 36 4 (0x1FFFFFFFFF : CmdWord) = 0x1 ∧
      BitVec.extractLsb' 36 4 (0x2F00000018 : CmdWord) = 0x2 ∧ BitVec.extractLsb' 36 4 (0x3A12345678 : CmdWord) = 0x3 ∧
      BitVec.extractLsb' 36 4 (0x41CAFEF00D : CmdWord) = 0x4 ∧ BitVec.extractLsb' 36 4 (0x5000000000 : CmdWord) = 0x5 ∧
      BitVec.extractLsb' 36 4 (0x6000000000 : CmdWord) = 0x6 ∧ BitVec.extractLsb' 36 4 (0x7300001234 : CmdWord) = 0x7 ∧
      8 ≤ (BitVec.extractLsb' 36 4 (0x8000000001 : CmdWord)).toNat ∧
      8 ≤ (BitVec.extractLsb' 36 4 (0xFFFFFFFFFF : CmdWord)).toNat) ∧
    (sFull.phase = .idle ∧ sFull.inited = true ∧ sFull.mvalid = 0xFFFF) ∧ sExpand.phase ≠ .idle ∧ sFold.phase ≠ .idle ∧
    (State.reset.phase = .idle ∧ State.reset.inited = false) ∧
    (sDone.phase = .idle ∧ sDone.inited = true ∧ sDone.mvalid ≠ 0xFFFF) ∧
    ((0 : BitVec 4).toNat < 5 ∧ (4 : BitVec 4).toNat < 5 ∧ sDone.H[(4 : BitVec 4).toNat]? = some (some 0x9CD0D89D)) ∧
    (5 ≤ (5 : BitVec 4).toNat ∧ 5 ≤ (15 : BitVec 4).toNat) := by
  decide +kernel

theorem witness_ExpandWritesOneScheduleWord :
    (16 ≤ sExpand.t.toNat ∧ sExpand.t.toNat < 79 ∧ sExpand.W[sExpand.t.toNat - 16]? = some (some 0x61626380) ∧
      sExpand.W[sExpand.t.toNat - 14]? = some (some 0) ∧ sExpand.W[sExpand.t.toNat - 8]? = some (some 0) ∧
      sExpand.W[sExpand.t.toNat - 3]? = some (some 0)) ∧
    (sExpandLast.t.toNat = 79 ∧ sExpandLast.W[sExpandLast.t.toNat - 3]? = some (some 0) ∧
      sExpandLast.W[sExpandLast.t.toNat - 8]? = some (some 0) ∧ sExpandLast.W[sExpandLast.t.toNat - 14]? = some (some 0) ∧
      sExpandLast.W[sExpandLast.t.toNat - 16]? = some (some 0)) := by
  decide +kernel

theorem witness_RoundMixesTheWorkingRegisters :
    (sRound.t.toNat < 79 ∧ sRound.a = some 0x67452301 ∧ sRound.b = some 0xEFCDAB89 ∧ sRound.c = some 0x98BADCFE ∧
      sRound.d = some 0x10325476 ∧ sRound.e = some 0xC3D2E1F0 ∧ sRound.W[sRound.t.toNat]? = some (some 0x61626380)) ∧
    (sRoundLast.t.toNat = 79 ∧ sRoundLast.a = some 0x5738D5E1 ∧ sRoundLast.b = some 0x860D21CC ∧
      sRoundLast.c = some 0x681E6DF6 ∧ sRoundLast.d = some 0xD8FDF6AD ∧ sRoundLast.e = some 0xD7B9DA25 ∧
      sRoundLast.W[sRoundLast.t.toNat]? = some (some 0x822E0879)) := by
  decide +kernel

theorem witness_FoldAddsIntoTheHashState :
    sFold.H = iv.map some ∧ sFold.a = some 0x42541B35 ∧ sFold.b = some 0x5738D5E1 ∧ sFold.c = some 0x21834873 ∧
      sFold.d = some 0x681E6DF6 ∧ sFold.e = some 0xD8FDF6AD := by
  decide +kernel

/-- States no run reaches: initialised, expanding and in a round without a value. -/
theorem witness_ReadsWithoutAValueComplete :
    (({ State.reset with inited := true } : State).phase = .idle ∧ ({ State.reset with inited := true } : State).H[4] = none) ∧
    16 ≤ ({ State.reset with phase := .expand, t := 16 } : State).t.toNat ∧
    ({ State.reset with phase := .expand, t := 79 } : State).t.toNat ≤ 79 ∧
    ({ State.reset with phase := .round, t := 79 } : State).t.toNat ≤ 79 := by decide

/-- The first positions past each end of the legal ranges. -/
theorem witness_MicroOperationsStopOutsideTheLegalPositions :
    ¬(16 ≤ ({ sExpand with t := 15 } : State).t.toNat ∧ ({ sExpand with t := 15 } : State).t.toNat ≤ 79) ∧
    ¬(16 ≤ ({ sExpand with t := 80 } : State).t.toNat ∧ ({ sExpand with t := 80 } : State).t.toNat ≤ 79) ∧
    80 ≤ ({ sRound with t := 80 } : State).t.toNat := by decide

theorem witness_DecodeOfEncodeIsTheInstruction :
    WellFormed (.loadw 15 0xFFFFFFFF) ∧ WellFormed (.rddig 15) ∧ WellFormed (.reserved8to15 8) ∧
      WellFormed (.reserved8to15 15) ∧ WellFormed .fold := by decide

/-- WordsDecodeAlikeExactlyOnUsedFields and TableRowsAreDisjointAndTotal. -/
theorem witness_TableRowsAreDisjointAndTotal :
    (⟨"RESERVED_8_15", 0x8000000000, 0x8000000000⟩ : CmdRow) ∈ cmdRows ∧
      (⟨"RESERVED_8_15", 0x8000000000, 0x8000000000⟩ : CmdRow).accepts 0x8000000001 = true ∧
      BitVec.extractLsb' 36 4 (0x2F00000018 : CmdWord) = 2 ∧ BitVec.extractLsb' 36 4 (0x41CAFEF00D : CmdWord) = 4 := by
  decide

/-- RotlMovesEveryBit and RotlRoundTripAndComposition. -/
theorem witness_rotl : (31 < 32) ∧ (1 : BitVec 5) ≠ 0 ∧ (31 : BitVec 5) ≠ 0 := by decide

/-- Every round at which the mixing function changes, at the lowest and the highest bit. -/
theorem witness_MixingFunctionPerBitPosition :
    ((0 ≤ 19) ∧ (19 ≤ 19) ∧ (20 ≤ 20 ∧ 20 ≤ 39) ∧ (20 ≤ 39 ∧ 39 ≤ 39) ∧ (40 ≤ 40 ∧ 40 ≤ 59) ∧ (40 ≤ 59 ∧ 59 ≤ 59) ∧ (60 ≤ 60) ∧
      (60 ≤ 79 ∧ 79 ≤ 79)) ∧ 0 < 32 ∧ 31 < 32 := by decide

theorem witness_ScheduleFollowsTheRecurrence : (16 ≤ 16 ∧ 16 ≤ 79) ∧ (16 ≤ 79 ∧ 79 ≤ 79) := by decide

/-- The hash state of `S_done`, as words. -/
def digestWords : Vector Word 5 := #v[0xA9993E36, 0x4706816A, 0xBA3E2571, 0x7850C26C, 0x9CD0D89D]

theorem witness_DigestPortIsTheConcatenation : sDone.H = digestWords.map some := by decide +kernel

theorem witness_RddigReadsBackThePort :
    sDone.Inv ∧ sDone.phase = .idle ∧ sDone.inited = true ∧ (0 : BitVec 4).toNat < 5 ∧ (4 : BitVec 4).toNat < 5 :=
  ⟨witness_Inv.2.2.1, rfl, rfl, by decide, by decide⟩

theorem witness_DigestIsStableWhileValid :
    sDone.Inv ∧ sDone.digestValidPort = true ∧ (∃ s', step sDone = .next s') ∧ sDone.input.rst = false ∧ ¬sDone.AcceptsInit ∧
      ¬sDone.AcceptsStart := by
  refine ⟨witness_Inv.2.2.1, rfl, exists_of_isNext (by decide +kernel), rfl, ?_, ?_⟩
  · rintro ⟨⟨_, w, hw, _⟩, _⟩; cases hw
  · rintro ⟨⟨_, w, hw, _⟩, _⟩; cases hw

/-- PaddedStreamIsAsStated and ChunksAreTheSlicedStream: a message of three bytes, and the first and the last word of its chunk. -/
theorem witness_PaddedStreamIsAsStated : 8 * ([0x61, 0x62, 0x63] : List Byte).length < 2 ^ 64 ∧ 0 < numChunks 3 := by decide

/-- A message of `n` bytes of zero. -/
theorem exists_overlong {n : Nat} (h : 2 ^ 64 ≤ 8 * n) : ∃ m : List Byte, 2 ^ 64 ≤ 8 * m.length :=
  ⟨List.replicate n 0, by rw [List.length_replicate]; exact h⟩

/-- A message of exactly 2^64 bits (2^61 bytes), and one of none. -/
theorem witness_OverlongMessagesAreRejected :
    (∃ m : List Byte, 2 ^ 64 ≤ 8 * m.length) ∧ 8 * ([] : List Byte).length < 2 ^ 64 :=
  ⟨exists_overlong (n := 2305843009213693952) (by norm_num), by norm_num⟩

/-- An idle, initialised core and a chunk. -/
theorem witness_HashblkCompressesItsChunk :
    (⟨sInit, []⟩ : Session).block.phase = .idle ∧ (⟨sInit, []⟩ : Session).block.inited = true ∧
      (⟨sInit, []⟩ : Session).block.H = iv.map some :=
  ⟨rfl, rfl, (by decide +kernel : sInit.H = iv.map some)⟩

/-- PseudoInstructionsExpandAsStated: `WAIT` from an idle core and from the position after an accepted `START`; `RDDIGEST`. -/
theorem witness_PseudoInstructionsExpandAsStated :
    (sDone.SequencerOk ∧ sDone.phase = .idle ∧ edgesToReady sDone = 0) ∧
    (sExpand.SequencerOk ∧ sExpand.phase = .expand ∧ sExpand.t = 16 ∧ edgesToReady sExpand = 145) ∧
    (sDone.Inv ∧ sDone.phase = .idle ∧ sDone.inited = true) :=
  ⟨by decide, by decide, witness_Inv.2.2.1, rfl, rfl⟩

/-- An idle core that still holds another digest, and the message "abc". -/
theorem witness_DriverComputesTheDigest :
    sDone.phase = .idle ∧ 8 * ([0x61, 0x62, 0x63] : List Byte).length < 2 ^ 64 := by decide

/-- The run of the empty message on a block in its fold phase begins with the refusal of its `INIT` (R180, R101). -/
theorem test_computeDigest_busy :
    (match computeDigest [] sFold with
      | .ok (.next run) => run.session.responses.head? == some ⟨.errBusy, 0⟩
      | _ => false) = true := by decide +kernel

/-- The first clause: that run, and that response. The second: both kinds of busy state, and the message "abc". -/
theorem witness_RefusedRunReturnsNoDigest :
    (∃ (run : DriverRun) (r : Response),
      computeDigest [] sFold = .ok (.next run) ∧ r ∈ run.session.responses ∧ r.code ≠ .ok) ∧
    (sExpand.SequencerOk ∧ sExpand.phase ≠ .idle) ∧ (sFold.SequencerOk ∧ sFold.phase ≠ .idle) ∧
      8 * ([0x61, 0x62, 0x63] : List Byte).length < 2 ^ 64 := by
  refine ⟨?_, by decide⟩
  have h := test_computeDigest_busy
  split at h
  · rename_i run hrun
    exact ⟨run, _, hrun, List.mem_of_mem_head? (by simpa using h), by decide⟩
  · cases h

end Sys2Proof.Tests
end

section
/-! PROOF. O35: `RDDIG`, `EXPAND`, `ROUND` and `FOLD` answer a next state whatever their operands hold (R14, log entry 3). One lemma
per instruction says what it leaves; the value read is whatever the model's read gives, held or free. -/

namespace Sys2Proof.Machine

/-- `RDDIG` of a register of an idle, initialised core is answered with what the read gives (R104). -/
theorem exec_rddig_of_idle {s : State} {idx : BitVec 4} (hidx : idx.toNat < 5) (hp : s.phase = .idle)
    (hi : s.inited = true) :
    exec (.rddig idx) s = .next (s.respond .ok (s.readHash ⟨idx.toNat, hidx⟩)) := by
  simp [exec, execRddig, digestIndex_of_lt hidx, hp, hi]

/-- The last index of a phase, as a number and as the seven bits of `t` (R33). -/
theorem toNat_eq_79_iff {t : BitVec 7} : t.toNat = 79 ↔ t = 79 :=
  BitVec.toNat_inj (x := t) (y := 79)

/-- One of two moves of the sequencer is a move to one of two positions (R33). -/
theorem State.ite_moveTo (c : Prop) [Decidable c] (s : State) (p q : Phase) (m n : BitVec 7) :
    (if c then s.moveTo p m else s.moveTo q n) = s.moveTo (if c then p else q) (if c then m else n) :=
  (apply_ite₂ s.moveTo c p q m n).symm

/-- Word `j` of the schedule store after `W[i] <- v` (R121). -/
theorem State.writeSched_getElem (s : State) (i j : Fin 80) (v : Word) :
    (s.writeSched i v).W[j] = if j.val = i.val then some v else s.W[j] := by
  simp [Vector.getElem_set, eq_comm]

/-- `EXPAND` in its range writes one word and moves the sequencer, whatever the words it reads hold (R121, R33). -/
theorem exec_expand_of_range {s : State} (h : 16 ≤ s.t.toNat ∧ s.t.toNat ≤ 79) :
    ∃ v, exec .expand s = .next ((s.writeSched ⟨s.t.toNat, by omega⟩ v).moveTo
      (if s.t = 79 then .round else s.phase) (if s.t = 79 then 0 else s.t + 1)) := by
  obtain ⟨v, -, he⟩ := execExpand_of_range h
  rw [State.ite_moveTo] at he
  exact ⟨v, he⟩

/-- `ROUND` in its range writes the five working registers and moves the sequencer, whatever its operands hold (R134, R33). -/
theorem exec_round_of_lt {s : State} (h : s.t.toNat < 80) :
    exec .round s = .next ((s.writeWork (roundFn s.t.toNat s.work (s.readSched ⟨s.t.toNat, h⟩))).moveTo
      (if s.t = 79 then .fold else s.phase) (if s.t = 79 then 0 else s.t + 1)) := by
  rw [← State.ite_moveTo]
  exact execRound_of_lt h

/-- `FOLD` stores the five sums and ends the chunk, whatever its operands hold (R139). -/
theorem exec_fold (s : State) :
    exec .fold s = .next ((s.foldHash (foldSums s.hash s.work)).discardChunk.endChunk) := rfl

/-- Settles O35: each of the four instructions answers the next state its lemma names, and that state has the stated frame. -/
theorem readsWithoutAValueComplete : Obligations.ReadsWithoutAValueComplete := by
  refine ⟨fun s idx hidx hp hi => ⟨_, exec_rddig_of_idle hidx hp hi⟩, fun s h16 h79 => ?expand, fun s h79 => ?round,
    fun s => ⟨foldSums s.hash s.work, ?fold⟩⟩
  case expand =>
    obtain ⟨v, he⟩ := exec_expand_of_range ⟨h16, h79⟩
    refine ⟨_, v, he, fun j => State.writeSched_getElem s _ j v, ?_⟩
    simp only [toNat_eq_79_iff]
    rfl
  case round =>
    have hlt : s.t.toNat < 80 := Nat.lt_succ_of_le h79
    refine ⟨_, roundFn s.t.toNat s.work (s.readSched ⟨s.t.toNat, hlt⟩), exec_round_of_lt hlt, ?_⟩
    simp only [toNat_eq_79_iff]
    rfl
  case fold =>
    rw [exec_fold, ← heldFive_eq]
    rfl

end Sys2Proof.Machine
end

section
/-! SUPPORT. One edge without `rst` in its two halves (R40): what the command leaves, in cases told apart by what the edge accepts,
then the micro-operation. The statements on an edge cite these instead of the arms of `exec`. -/

namespace Sys2Proof.Machine

/-- One step of a run that does not stop (R40). -/
theorem core_run_succ {s u : State} (h : step s = .next u) (n : Nat) :
    core.run (n + 1) s = core.run n u := by
  simp only [Host.Core.run, Host.Check.core_step, h]

/-- Without `rst` an edge is the engine's micro-operation on what the command leaves (R40). -/
theorem step_of_takeCommand {s c : State} (hr : s.input.rst = false)
    (hc : takeCommand s.input.cmd s.beginEdge = .next c) : step s = engine s.phase c := by
  simp [step, edge, hr, hc]

/-- The command of an edge, if any, always leaves a next state (R71, R193). -/
theorem takeCommand_next (cmd : Option CmdWord) (s : State) : ∃ c, takeCommand cmd s = .next c := by
  cases cmd with
  | none => exact ⟨s, rfl⟩
  | some w =>
    obtain ⟨c, _, hc, -⟩ := exec_command_next (decodeCmd w) s (decodeCmd_isCommand w)
    exact ⟨c, hc⟩

/-! What an edge presents and accepts. -/

/-- An edge presents at most one instruction (R40). -/
theorem State.Presents.iff_eq {s : State} {i j : Instr} (hi : s.Presents i) : s.Presents j ↔ i = j := by
  refine ⟨fun hj => ?_, fun h => h ▸ hi⟩
  obtain ⟨-, w, hw, rfl⟩ := hi
  obtain ⟨-, v, hv, rfl⟩ := hj
  rw [Option.some.inj (hw.symm.trans hv)]

/-- The next edge accepts none of the three commands that write more than the error record and the response (R101 to R103). -/
def State.AcceptsNothing (s : State) : Prop :=
  ¬s.AcceptsInit ∧ (∀ idx data, ¬s.AcceptsLoadw idx data) ∧ ¬s.AcceptsStart

/-- A busy core accepts nothing (R196 item 3). -/
theorem State.acceptsNothing_of_busy {s : State} (hb : s.phase ≠ .idle) : s.AcceptsNothing :=
  ⟨fun h => hb h.2, fun _ _ h => hb h.2, fun h => hb h.2.1⟩

/-- Without a command nothing is accepted. -/
theorem State.acceptsNothing_of_none {s : State} (h : ∀ i, ¬s.Presents i) : s.AcceptsNothing :=
  ⟨fun ha => h _ ha.1, fun _ _ ha => h _ ha.1, fun ha => h _ ha.1⟩

/-- An accepted command has no cause of refusal (R196). -/
theorem firstCause_of_accepted {s : State} {i : Instr} (hp : s.Presents i) (ha : ¬s.AcceptsNothing) :
    firstCause i s = .ok := by
  by_contra hf
  refine ha ⟨fun ⟨h, hi⟩ => hf ?_, fun idx data ⟨h, hi⟩ => hf ?_, fun ⟨h, hi, hn, hm⟩ => hf ?_⟩
  · obtain rfl := hp.iff_eq.1 h
    simp [firstCause, illegalOp, badIndex, needsHash, needsChunk, hi]
  · obtain rfl := hp.iff_eq.1 h
    simp [firstCause, illegalOp, badIndex, needsHash, needsChunk, hi]
  · obtain rfl := hp.iff_eq.1 h
    simp [firstCause, illegalOp, badIndex, hi, hn, hm]

/-- No response, or one with code `OK`, is no refusal (R191). -/
theorem Response.not_refused_none : ¬Response.Refused none := fun ⟨_, h, _⟩ => nomatch h

theorem Response.refused_some_iff (r : Response) : Response.Refused (some r) ↔ r.code ≠ .ok :=
  ⟨fun ⟨_, h, hc⟩ => Option.some.inj h ▸ hc, fun h => ⟨r, rfl, h⟩⟩

/-- What the command of an edge leaves, told apart by what the edge accepts (R100 to R107, R193). -/
inductive CommandLeaves (s : State) : State → Prop
  /-- No command, or one that is answered and writes nothing. -/
  | answered (hn : s.AcceptsNothing) (hclr : ¬s.Presents .clrerr) (z : Option Response) (hz : ¬Response.Refused z) :
      CommandLeaves s { s.beginEdge with rsp := z }
  /-- A refusal (R193). -/
  | refused (hn : s.AcceptsNothing) (hclr : ¬s.Presents .clrerr) (code : RspCode) (hcode : code ≠ .ok) :
      CommandLeaves s ((s.beginEdge.recordError code).respond code 0)
  /-- `CLRERR` (R106). -/
  | cleared (hn : s.AcceptsNothing) (hclr : s.Presents .clrerr) : CommandLeaves s (s.beginEdge.clearError.respond .ok 0)
  /-- An accepted `INIT` (R101). -/
  | init (ha : s.AcceptsInit) : CommandLeaves s ((s.beginEdge.initHash Config.params.iv).respond .ok 0)
  /-- An accepted `LOADW` (R102). -/
  | loadw (idx : BitVec 4) (data : Word) (ha : s.AcceptsLoadw idx data) :
      CommandLeaves s ((s.beginEdge.loadWord idx data).respond .ok 0)
  /-- An accepted `START` (R103). -/
  | start (ha : s.AcceptsStart) : CommandLeaves s ((s.beginEdge.latch.moveTo .expand 16).respond .ok 0)

/-- The command of an edge without `rst` leaves one of these. -/
theorem commandLeaves_of_takeCommand {s c : State} (hr : s.input.rst = false)
    (hc : takeCommand s.input.cmd s.beginEdge = .next c) : CommandLeaves s c := by
  cases hw : s.input.cmd with
  | none =>
    rw [hw] at hc
    cases hc
    have hn : ∀ i, ¬s.Presents i := fun i ⟨_, w, h, _⟩ => nomatch hw.symm.trans h
    exact .answered (State.acceptsNothing_of_none hn) (hn _) none Response.not_refused_none
  | some w =>
    rw [hw] at hc
    have hx : exec (decodeCmd w) s.beginEdge = .next c := hc
    have hp : s.Presents (decodeCmd w) := ⟨hr, w, hw, rfl⟩
    have hcmd := decodeCmd_isCommand w
    generalize decodeCmd w = i at hx hp hcmd
    rcases exec_command_cases i s.beginEdge hcmd with ⟨-, hi, r, h⟩ | ⟨hf, h⟩ | ⟨-, rfl, h⟩ | ⟨-, rfl, hidle, h⟩ |
      ⟨-, hidle, idx, data, rfl, h⟩ | ⟨-, rfl, hidle, hinit, hfull, h⟩ <;> cases hx.symm.trans h
    · refine .answered ?_ ?_ (some ⟨.ok, r⟩) (by simp [Response.refused_some_iff])
      · rcases hi with rfl | rfl | ⟨idx, rfl⟩ <;>
          simp [State.AcceptsNothing, State.AcceptsInit, State.AcceptsLoadw, State.AcceptsStart, hp.iff_eq]
      · rcases hi with rfl | rfl | ⟨idx, rfl⟩ <;> simp [hp.iff_eq]
    · refine .refused ?_ ?_ _ hf
      · exact by_contra fun ha => hf (firstCause_of_accepted (s := s) hp ha)
      · intro hclr
        obtain rfl := hp.iff_eq.1 hclr
        exact hf rfl
    · refine .cleared ?_ hp
      simp [State.AcceptsNothing, State.AcceptsInit, State.AcceptsLoadw, State.AcceptsStart, hp.iff_eq]
    · exact .init ⟨hp, hidle⟩
    · exact .loadw idx data ⟨hp, hidle⟩
    · exact .start ⟨hp, hidle, hinit, hfull⟩

/-- An edge without `rst` is the engine's micro-operation on what the command leaves (R40). -/
theorem step_eq_engine {s : State} (hr : s.input.rst = false) : ∃ c, CommandLeaves s c ∧ step s = engine s.phase c := by
  obtain ⟨c, hc⟩ := takeCommand_next s.input.cmd s.beginEdge
  exact ⟨c, commandLeaves_of_takeCommand hr hc, step_of_takeCommand hr hc⟩

/-- A step that leaves a next state is a reset, or what the command leaves and then the micro-operation (R40). -/
theorem step_halves {s s' : State} (h : step s = .next s') :
    (s.input.rst = true ∧ s' = s.beginEdge.toReset) ∨
    (s.input.rst = false ∧ ∃ c, CommandLeaves s c ∧ engine s.phase c = .next s') := by
  cases hr : s.input.rst with
  | true =>
    rw [step_of_rst hr] at h
    cases h
    exact .inl ⟨rfl, rfl⟩
  | false =>
    obtain ⟨c, hc, hs⟩ := step_eq_engine hr
    exact .inr ⟨rfl, c, hc, hs ▸ h⟩

/-! What the command of an edge does to each element. -/

section
variable {s c : State} (h : CommandLeaves s c)
include h

/-- `START` moves the sequencer, and no other command (R33). -/
theorem CommandLeaves.position :
    (s.AcceptsStart ∧ c.phase = .expand ∧ c.t = 16) ∨ (¬s.AcceptsStart ∧ c.phase = s.phase ∧ c.t = s.t) := by
  cases h with
  | answered hn | refused hn | cleared hn => exact .inr ⟨hn.2.2, rfl, rfl⟩
  | init ha => exact .inr ⟨by simp [State.AcceptsStart, ha.1.iff_eq], rfl, rfl⟩
  | loadw idx data ha => exact .inr ⟨by simp [State.AcceptsStart, ha.1.iff_eq], rfl, rfl⟩
  | start ha => exact .inl ⟨ha, rfl, rfl⟩

/-- `INIT` and `START` clear `dvalid`, and no other command (R29). -/
theorem CommandLeaves.dvalid : c.dvalid = true ↔ s.dvalid = true ∧ ¬s.AcceptsInit ∧ ¬s.AcceptsStart := by
  cases h with
  | answered hn | refused hn | cleared hn => simp [hn.1, hn.2.2]
  | init ha => simp [ha]
  | loadw idx data ha => simp [State.AcceptsInit, State.AcceptsStart, ha.1.iff_eq]
  | start ha => simp [ha]

/-- `INIT` sets `inited`, and no other command (R28). -/
theorem CommandLeaves.inited : c.inited = true ↔ s.AcceptsInit ∨ s.inited = true := by
  cases h with
  | answered hn | refused hn | cleared hn => simp [hn.1]
  | init ha => simp [ha]
  | loadw idx data ha => simp [State.AcceptsInit, ha.1.iff_eq]
  | start ha => simp [State.AcceptsInit, ha.1.iff_eq]

/-- A refusal sets `err` and `CLRERR` clears it (R30). -/
theorem CommandLeaves.err :
    c.err = true ↔ Response.Refused c.rsp ∨ (s.err = true ∧ ¬s.Presents .clrerr) := by
  cases h with
  | answered hn hclr z hz => simp [hz, hclr]
  | refused hn hclr code hcode => simp [Response.refused_some_iff, hcode]
  | cleared hn hclr => simp [Response.refused_some_iff, hclr]
  | init ha => simp [Response.refused_some_iff, ha.1.iff_eq]
  | loadw idx data ha => simp [Response.refused_some_iff, ha.1.iff_eq]
  | start ha => simp [Response.refused_some_iff, ha.1.iff_eq]

/-- `CLRERR` clears `ecode`; a refusal with `err` clear records its code; nothing else writes it (R31). -/
theorem CommandLeaves.ecode :
    (s.Presents .clrerr → c.ecode = 0) ∧
    (¬s.Presents .clrerr → s.err = true ∨ ¬Response.Refused c.rsp → c.ecode = s.ecode) ∧
    (s.err = false → ∀ r, c.rsp = some r → r.code ≠ .ok → c.ecode = r.code.bits) := by
  have hok : ∀ {r : Response}, some ⟨.ok, 0⟩ = some r → ¬r.code ≠ .ok := by rintro r ⟨⟩; simp
  cases h with
  | answered hn hclr z hz => exact ⟨fun hp => absurd hp hclr, fun _ _ => rfl, fun _ r hz' hr => absurd ⟨r, hz', hr⟩ hz⟩
  | refused hn hclr code hcode =>
    refine ⟨fun hp => absurd hp hclr, fun _ he => ?_, fun he r hz hr => ?_⟩
    · simp [show s.err = true by simpa [Response.refused_some_iff, hcode] using he]
    · obtain rfl := Option.some.inj hz
      simp [he]
  | cleared hn hclr => exact ⟨fun _ => rfl, fun hp => absurd hclr hp, fun _ r hz hr => absurd hr (hok hz)⟩
  | init ha => exact ⟨by simp [ha.1.iff_eq], fun _ _ => rfl, fun _ r hz hr => absurd hr (hok hz)⟩
  | loadw idx data ha => exact ⟨by simp [ha.1.iff_eq], fun _ _ => rfl, fun _ r hz hr => absurd hr (hok hz)⟩
  | start ha => exact ⟨by simp [ha.1.iff_eq], fun _ _ => rfl, fun _ r hz hr => absurd hr (hok hz)⟩

/-- `LOADW` sets its bit of `mvalid`, and no other command writes it (R25). -/
theorem CommandLeaves.mvalid (j : Fin 16) :
    c.mvalid.getLsbD j.val = true ↔
      s.mvalid.getLsbD j.val = true ∨ ∃ data, s.AcceptsLoadw (BitVec.ofNat 4 j.val) data := by
  cases h with
  | answered hn | refused hn | cleared hn => simp [hn.2.1]
  | init ha => simp [State.AcceptsLoadw, ha.1.iff_eq]
  | loadw idx data ha =>
    have hj : (∃ d, s.AcceptsLoadw (BitVec.ofNat 4 j.val) d) ↔ j.val = idx.toNat := by
      simp [State.AcceptsLoadw, ha.1.iff_eq, ha.2, ← BitVec.toNat_inj, eq_comm]
    rw [hj, State.respond_mvalid, State.loadWord_mvalid, getLsbD_markLoaded _ _ _ j.isLt]
    simp
  | start ha => simp [State.AcceptsLoadw, ha.1.iff_eq]

/-- `LOADW` writes its word of the schedule store, and no other command writes the store (R20, R23). -/
theorem CommandLeaves.W_eq (j : Fin 80) (hj : j.val < 16 → ∀ data, ¬s.AcceptsLoadw (BitVec.ofNat 4 j.val) data) :
    c.W[j] = s.W[j] := by
  cases h with
  | answered | refused | cleared | init | start => rfl
  | loadw idx data ha =>
    refine Vector.getElem_set_ne (bufferIndex idx).isLt j.isLt fun he => ?_
    have hlt : j.val < 16 := he ▸ idx.isLt
    refine hj hlt data ?_
    rwa [← he, bufferIndex_val, BitVec.ofNat_toNat, BitVec.setWidth_eq]

/-- `START` writes the working registers, and no other command (R20, R22). -/
theorem CommandLeaves.work_eq (hs : ¬s.AcceptsStart) (r : Config.WorkReg) : c.heldWork r = s.heldWork r := by
  cases h with
  | answered | refused | cleared | init | loadw => rfl
  | start ha => exact absurd ha hs

/-- A command to a busy core writes the error record and the response only (R41). -/
theorem CommandLeaves.sameDatapath (hb : s.phase ≠ .idle) : SameDatapath s c := by
  have hn := State.acceptsNothing_of_busy hb
  cases h with
  | answered | refused | cleared => exact ⟨rfl, rfl, rfl, rfl, rfl, rfl, rfl, rfl, rfl, rfl, rfl, rfl⟩
  | init ha => exact absurd ha hn.1
  | loadw idx data ha => exact absurd ha (hn.2.1 idx data)
  | start ha => exact absurd ha hn.2.2

/-- A command leaves the model's own fields as the beginning of the edge does (log entries 1, 4). -/
theorem CommandLeaves.inputs_eq : c.inputs = s.inputs.tail := by
  cases h <;> rfl

end

end Sys2Proof.Machine
end

section
/-! SUPPORT. What the engine's half of an edge does to each element (R33, R41, R121, R134, R139). -/

namespace Sys2Proof.Machine

/-- Where the engine alone takes the sequencer from a position (R33). -/
def nextPosition (p : Phase) (t : BitVec 7) : Phase × BitVec 7 :=
  match p with
  | .idle => (.idle, t)
  | .expand => if t = 79 then (.round, 0) else (.expand, t + 1)
  | .round => if t = 79 then (.fold, 0) else (.round, t + 1)
  | .fold => (.idle, t)

/-- Below the last index of `EXPAND` and `ROUND` the engine counts (R33). -/
theorem nextPosition_of_lt {p : Phase} {t : BitVec 7} (hi : p ≠ .idle) (hf : p ≠ .fold) (h : t.toNat < 79) :
    nextPosition p t = (p, t + 1) := by
  have ht : t ≠ 79 := fun he => absurd (toNat_eq_79_iff.2 he) h.ne
  cases p with
  | idle => exact absurd rfl hi
  | expand => exact if_neg ht
  | round => exact if_neg ht
  | fold => exact absurd rfl hf

/-- An idle or folding sequencer at a legal position has index 0 (R42). -/
theorem State.SequencerOk.t_eq_zero {s : State} (h : s.SequencerOk) (hp : s.phase = .idle ∨ s.phase = .fold) : s.t = 0 := by
  rcases hp with hp | hp <;> simpa [State.SequencerOk, sequencerLegal, hp] using h

/-- The micro-operation of the state's own phase moves the sequencer so (R33). -/
theorem engine_position {s u : State} (h : engine s.phase s = .next u) :
    (u.phase, u.t) = nextPosition s.phase s.t := by
  rcases engine_cases h with ⟨hp, rfl⟩ | ⟨hp, -, v, rfl⟩ | ⟨hp, -, v, rfl⟩ | ⟨hp, rfl⟩
  · simp [nextPosition, hp]
  · rw [hp, nextPosition]; split <;> simp
  · rw [hp, nextPosition]; split <;> simp
  · simp [nextPosition, hp]

/-- Below the last index of a phase `t + 1` does not wrap (R27). -/
theorem toNat_add_one_of_lt {t : BitVec 7} (h : t.toNat < 79) : (t + 1).toNat = t.toNat + 1 :=
  BitVec.toNat_add_of_lt (y := 1) (by change t.toNat + 1 < 128; omega)

section
variable {p : Phase} {s u : State} (h : engine p s = .next u)
include h

/-- `FOLD` sets `dvalid`, and no other micro-operation writes it (R29). -/
theorem engine_dvalid : u.dvalid = true ↔ p = .fold ∨ s.dvalid = true := by
  rcases engine_cases h with ⟨rfl, rfl⟩ | ⟨rfl, -, v, rfl⟩ | ⟨rfl, -, v, rfl⟩ | ⟨rfl, rfl⟩
  · simp
  · split <;> simp
  · split <;> simp
  · simp

/-- `FOLD` clears `mvalid`, and no other micro-operation writes it (R25). -/
theorem engine_mvalid : u.mvalid = if p = .fold then 0 else s.mvalid := by
  rcases engine_cases h with ⟨rfl, rfl⟩ | ⟨rfl, -, v, rfl⟩ | ⟨rfl, -, v, rfl⟩ | ⟨rfl, rfl⟩
  · rfl
  · split <;> rfl
  · split <;> rfl
  · rfl

/-- `EXPAND` writes its own word of the schedule store, `FOLD` discards the store, and nothing else writes it (R20, R23). -/
theorem engine_W_eq (hp : p ≠ .fold) (j : Fin 80) (hj : ¬(p = .expand ∧ 16 ≤ j.val ∧ s.t.toNat = j.val)) :
    u.W[j] = s.W[j] := by
  rcases engine_cases h with ⟨rfl, rfl⟩ | ⟨rfl, hr, v, rfl⟩ | ⟨rfl, -, v, rfl⟩ | ⟨rfl, rfl⟩
  · rfl
  · have hne : j.val ≠ s.t.toNat := fun he => hj ⟨rfl, he ▸ hr.1, he.symm⟩
    rw [State.ite_moveTo, State.moveTo_W, State.writeSched_getElem, if_neg hne]
  · split <;> rfl
  · exact absurd rfl hp

/-- `ROUND` and `FOLD` write the working registers, and nothing else in the engine (R20, R22). -/
theorem engine_work_eq (hp : p ≠ .fold) (hr : p ≠ .round) (r : Config.WorkReg) : u.heldWork r = s.heldWork r := by
  rcases engine_cases h with ⟨rfl, rfl⟩ | ⟨rfl, -, v, rfl⟩ | ⟨rfl, -, v, rfl⟩ | ⟨rfl, rfl⟩
  · rfl
  · split <;> rfl
  · exact absurd rfl hr
  · exact absurd rfl hp

end

end Sys2Proof.Machine
end

section
/-! PROOF. O15, O16, O18: where the sequencer goes, what sets and clears the flags, and who writes the schedule store and the
working registers. Each reads off the command's half of an edge and then the engine's. -/

namespace Sys2Proof.Machine

/-- A busy edge without `rst` takes the sequencer where the engine takes it, whatever the host presents (R33, R41). -/
theorem step_position_of_busy {s s' : State} (h : step s = .next s') (hr : s.input.rst = false) (hb : s.phase ≠ .idle) :
    (s'.phase, s'.t) = nextPosition s.phase s.t := by
  rcases step_halves h with ⟨hr', -⟩ | ⟨-, c, hc, he⟩
  · simp [hr] at hr'
  · rcases hc.position with ⟨ha, -⟩ | ⟨-, hp, ht⟩
    · exact absurd ha.2.1 hb
    · rw [← hp] at he
      rw [engine_position he, hp, ht]

/-- `EXPAND` and `ROUND` below their last index count one edge (R33). -/
theorem step_counts {s s' : State} (h : step s = .next s') (hr : s.input.rst = false) (hi : s.phase ≠ .idle)
    (hf : s.phase ≠ .fold) (ht : s.t.toNat < 79) : s'.phase = s.phase ∧ s'.t.toNat = s.t.toNat + 1 := by
  obtain ⟨hp, hn⟩ := Prod.mk.inj ((step_position_of_busy h hr hi).trans (nextPosition_of_lt hi hf ht))
  exact ⟨hp, hn ▸ toNat_add_one_of_lt ht⟩

/-- An idle edge without `rst` moves the sequencer only by an accepted `START` (R33). -/
theorem step_position_of_idle {s s' : State} (h : step s = .next s') (hr : s.input.rst = false) (hi : s.phase = .idle) :
    (s.AcceptsStart ∧ s'.phase = .expand ∧ s'.t = 16) ∨ (¬s.AcceptsStart ∧ s'.phase = s.phase ∧ s'.t = s.t) := by
  rcases step_halves h with ⟨hr', -⟩ | ⟨-, c, hc, he⟩
  · simp [hr] at hr'
  · rw [hi, engine_idle] at he
    cases he
    exact hc.position

/-- Settles O15: the eight lines are `nextPosition` at a busy core, and `START` or nothing at an idle one. -/
theorem sequencerMovesOnlyAsStated : Obligations.SequencerMovesOnlyAsStated := by
  intro s s' hok h
  refine ⟨fun hr => ?_, fun hr => ?_⟩
  · rw [step_of_rst hr] at h
    cases h
    exact ⟨rfl, rfl⟩
  have hidle := step_position_of_idle h hr
  have hbusy := step_position_of_busy h hr
  refine ⟨fun hp ha => ?_, fun hp ha => ?_, fun hp ht => ?_, fun hp ht => ?_, fun hp ht => ?_, fun hp ht => ?_, fun hp => ?_⟩
  · exact (hidle hp).elim (·.2) fun hn => absurd ha hn.1
  · obtain ⟨-, hm, hn⟩ := (hidle hp).resolve_left fun hs => ha hs.1
    exact ⟨hm.trans hp, hn.trans (hok.t_eq_zero (.inl hp))⟩
  · exact hp ▸ step_counts h hr (by simp [hp]) (by simp [hp]) ht
  · simpa [hp, nextPosition, toNat_eq_79_iff.1 ht] using hbusy (by simp [hp])
  · exact hp ▸ step_counts h hr (by simp [hp]) (by simp [hp]) ht
  · simpa [hp, nextPosition, toNat_eq_79_iff.1 ht] using hbusy (by simp [hp])
  · simpa [hp, nextPosition, hok.t_eq_zero (.inr hp)] using hbusy (by simp [hp])

/-- Settles O16: at a reset every flag is cleared; at any other edge the command writes what `CommandLeaves` says, and the
engine adds the end of a chunk. -/
theorem flagsChangeOnlyAsStated : Obligations.FlagsChangeOnlyAsStated := by
  intro s s' h
  rcases step_halves h with ⟨hr, rfl⟩ | ⟨hr, c, hc, he⟩
  · simp [hr, Response.not_refused_none]
  · obtain ⟨herr, hecode, hrsp, -, -, hinited⟩ := engine_frame he
    obtain ⟨hclear, hkeep, hrecord⟩ := hc.ecode
    rw [herr, hecode, hrsp, hinited]
    refine ⟨?_, ?_, ?_, ?_, fun _ hp => ⟨hkeep hp, hrecord⟩, fun j => ?_⟩
    · rw [engine_dvalid he, hc.dvalid]
      simp [hr]
    · rw [hc.inited]
      simp [hr]
    · rw [hc.err]
      simp [hr]
    · simpa [hr] using hclear
    · rw [engine_mvalid he]
      by_cases hp : s.phase = .fold
      · simp [hp]
      · rw [if_neg hp, hc.mvalid]
        simp [hr, hp]

/-- Settles O18: an accepted command is the only writer in the command's half, and the micro-operation of the phase in the
engine's. -/
theorem scheduleAndWorkingRegistersHold : Obligations.ScheduleAndWorkingRegistersHold := by
  intro s s' h hr hp
  rcases step_halves h with ⟨hr', -⟩ | ⟨-, c, hc, he⟩
  · simp [hr] at hr'
  have ht : s.phase = .expand → c.t = s.t := fun hx => by
    rcases hc.position with ⟨ha, -⟩ | ⟨-, -, ht⟩
    · simp [ha.2.1] at hx
    · exact ht
  refine ⟨fun j hj hn => ?_, fun j hj hn => ?_, fun hround hstart => ?_⟩
  · rw [← hc.W_eq j fun _ => hn]
    exact engine_W_eq he hp j fun ⟨_, h16, _⟩ => absurd hj (by omega)
  · rw [← hc.W_eq j fun hlt => absurd hlt (by omega)]
    exact engine_W_eq he hp j fun ⟨hx, _, htj⟩ => hn ⟨hx, ht hx ▸ htj⟩
  · have hw : ∀ r, s'.heldWork r = s.heldWork r := fun r =>
      (engine_work_eq he hp hround r).trans (hc.work_eq hstart r)
    exact ⟨hw .a, hw .b, hw .c, hw .d, hw .e⟩

end Sys2Proof.Machine
end

section
/-! PROOF. O1, O3, O4, O6: the invariant (R42, R43) holds after reset and is kept by the command's half of an edge and by the
engine's, so it holds after any run from reset. -/

namespace Sys2Proof.Machine

/-- A reset gives every element its value of R37, whatever the state before (R220). -/
theorem State.toReset_atReset (s : State) : s.toReset.AtReset :=
  ⟨rfl, rfl, rfl, rfl, rfl, rfl, rfl, fun i => Vector.getElem_replicate i.isLt, ⟨rfl, rfl, rfl, rfl, rfl⟩,
    fun i => Vector.getElem_replicate i.isLt, (by decide : State.reset.status = 0x00000001), rfl, rfl, rfl, rfl⟩

/-- Settles O1: the reset state is the reset of itself. -/
theorem resetStateHoldsTheStatedValues : Obligations.ResetStateHoldsTheStatedValues :=
  State.reset.toReset_atReset

/-- A reset leaves a state that meets the invariant, whatever the state before (R42, R220). -/
theorem State.toReset_inv (s : State) : s.toReset.Inv := by
  refine ⟨rfl, ⟨iff_of_true rfl rfl, Nat.zero_le 5⟩, ⟨(nomatch ·), (absurd rfl ·)⟩, fun i => ?_,
    ⟨rfl, rfl, rfl, rfl, rfl⟩, fun i => ?_⟩
  · simp
  · simp [schedExpected]

/-- Settles O3: the reset state is the reset of itself. -/
theorem invariantHoldsAtReset : Obligations.InvariantHoldsAtReset :=
  State.reset.toReset_inv

/-- The beginning of an edge writes no element the invariant speaks of. -/
theorem State.Inv.beginEdge {s : State} (h : s.Inv) : s.beginEdge.Inv := h

/-- A refusal leaves a code of 1 to 5 with the flag set (R31, R193). -/
theorem State.ErrorOk.recordError {s : State} (h : s.ErrorOk) {code : RspCode} (hc : code ≠ .ok) :
    (s.recordError code).ErrorOk := by
  obtain ⟨hiff, hle⟩ := h
  cases he : s.err with
  | true =>
    rw [he] at hiff
    simpa [State.ErrorOk, he] using ⟨by simpa using hiff, hle⟩
  | false => simpa [State.ErrorOk, he] using ⟨mt (RspCode.bits_eq_zero_iff code).1 hc, code.bits_le_five⟩

/-- In an idle core exactly the loaded words of the schedule store hold a value (R25, R43). -/
theorem schedExpected_of_idle {s : State} (h : s.phase = .idle) (i : Fin 80) :
    schedExpected s i = (decide (i.val < 16) && s.mvalid.getLsbD i.val) := by
  by_cases hi : i.val < 16 <;> simp [schedExpected, h, hi]

/-- Word `j` of the schedule store after `LOADW` (R102). -/
theorem State.loadWord_getElem (s : State) (idx : BitVec 4) (data : Word) (j : Fin 80) :
    (s.loadWord idx data).W[j] = if j.val = idx.toNat then some data else s.W[j] := by
  simp [Vector.getElem_set, eq_comm]

/-- `LOADW` gives its word a value and marks it loaded (R25, R102). -/
theorem State.HeldOk.loadWord {s : State} (h : s.HeldOk) (hp : s.phase = .idle) (idx : BitVec 4) (data : Word) :
    (s.loadWord idx data).HeldOk := by
  obtain ⟨hH, hwork, hW⟩ := h
  refine ⟨hH, hwork, fun i => ?_⟩
  rw [schedExpected_of_idle (s := s.loadWord idx data) hp, State.loadWord_getElem, State.loadWord_mvalid]
  by_cases he : i.val = idx.toNat
  · have h16 : idx.toNat < 16 := idx.isLt
    rw [if_pos he, getLsbD_markLoaded _ _ _ (he ▸ h16)]
    simp [he, h16]
  · rw [if_neg he, hW, schedExpected_of_idle hp]
    by_cases h16 : i.val < 16
    · simp [getLsbD_markLoaded _ _ _ h16, he]
    · simp [h16]

/-- `START` fills the working registers from the hash state and begins the schedule at word 16 (R103, R43). -/
theorem State.Inv.start {s : State} (h : s.Inv) (hp : s.phase = .idle) (hi : s.inited = true) (hm : s.mvalid = 0xFFFF) :
    (s.latch.moveTo .expand 16).Inv := by
  obtain ⟨-, herr, -, hH, -, hW⟩ := h
  have hlatch : ∀ i : Fin 5, (s.heldHash i).isSome = true := fun i => (hH i).trans hi
  refine ⟨rfl, herr, ⟨(nomatch ·), fun _ => ⟨hi, hm⟩⟩, hH, ⟨hlatch 0, hlatch 1, hlatch 2, hlatch 3, hlatch 4⟩, fun i => ?_⟩
  refine (hW i).trans ?_
  rw [schedExpected_of_idle hp]
  by_cases h16 : i.val < 16 <;> simp [schedExpected, h16]

/-- `INIT` loads all five hash registers (R101, R28). -/
theorem State.Inv.initHash {s : State} (h : s.Inv) (hp : s.phase = .idle) (iv : Vector Word 5) : (s.initHash iv).Inv := by
  obtain ⟨hseq, herr, -, -, hwork, hW⟩ := h
  refine ⟨hseq, herr, ⟨(nomatch ·), fun hb => absurd hp hb⟩, fun i => ?_, hwork, hW⟩
  simp [heldFive_eq]

/-- The command of an edge keeps the invariant (R42, R43). -/
theorem CommandLeaves.inv {s c : State} (hc : CommandLeaves s c) (h : s.Inv) : c.Inv := by
  obtain ⟨hseq, herr, hflag, hheld⟩ := h.beginEdge
  cases hc with
  | answered => exact ⟨hseq, herr, hflag, hheld⟩
  | refused hn hclr code hcode => exact ⟨hseq, herr.recordError hcode, hflag, hheld⟩
  | cleared => exact ⟨hseq, ⟨iff_of_true rfl rfl, Nat.zero_le 5⟩, hflag, hheld⟩
  | init ha => exact h.beginEdge.initHash ha.2 _
  | loadw idx data ha =>
    exact ⟨hseq, herr, ⟨hflag.1, (absurd ha.2 ·)⟩, State.HeldOk.loadWord hheld ha.2 idx data⟩
  | start ha =>
    obtain ⟨-, hidle, hinit, hfull⟩ := ha
    exact h.beginEdge.start hidle hinit hfull

/-- The engine takes a legal position to a legal position (R33, R42). -/
theorem sequencerLegal_nextPosition {p : Phase} {t : BitVec 7} (h : sequencerLegal p t = true) :
    sequencerLegal (nextPosition p t).1 (nextPosition p t).2 = true := by
  cases p with
  | idle | fold => exact h
  | expand | round =>
    by_cases ht : t = 79
    · simp [nextPosition, ht, sequencerLegal]
    · have hne : t.toNat ≠ 79 := mt toNat_eq_79_iff.1 ht
      simp only [sequencerLegal, Bool.and_eq_true, decide_eq_true_eq] at h
      have hlt : t.toNat < 79 := by omega
      rw [nextPosition_of_lt (by simp) (by simp) hlt]
      simp only [sequencerLegal, toNat_add_one_of_lt hlt, Bool.and_eq_true, decide_eq_true_eq]
      omega

/-- While the schedule is expanded exactly the words below `t` hold a value (R43). -/
theorem schedExpected_of_expand {s : State} (hp : s.phase = .expand) (hm : s.mvalid = 0xFFFF) (h16 : 16 ≤ s.t.toNat)
    (i : Fin 80) : schedExpected s i = decide (i.val < s.t.toNat) := by
  by_cases hi : i.val < 16
  · rw [schedExpected, if_pos hi, getLsbD_full hm hi]
    exact (decide_eq_true (hi.trans_le h16)).symm
  · rw [schedExpected, if_neg hi, hp]

/-- From round 0 on every word of the schedule store holds a value (R43). -/
theorem schedExpected_of_round {s : State} (hp : s.phase = .round ∨ s.phase = .fold) (hm : s.mvalid = 0xFFFF)
    (i : Fin 80) : schedExpected s i = true := by
  by_cases hi : i.val < 16
  · rw [schedExpected, if_pos hi, getLsbD_full hm hi]
  · rcases hp with hp | hp <;> rw [schedExpected, if_neg hi, hp]

/-- `EXPAND` adds word `t` to the schedule, and round 0 begins with all eighty words (R43, R121). -/
theorem State.Inv.expand_heldOk {s : State} (h : s.Inv) (hp : s.phase = .expand)
    (hr : 16 ≤ s.t.toNat ∧ s.t.toNat ≤ 79) (v : Word) :
    (if s.t = 79 then (s.writeSched ⟨s.t.toNat, by omega⟩ v).moveTo .round 0
      else (s.writeSched ⟨s.t.toNat, by omega⟩ v).moveTo s.phase (s.t + 1)).HeldOk := by
  obtain ⟨-, hm⟩ := h.of_busy (by simp [hp])
  obtain ⟨-, -, -, hH, hwork, hW⟩ := h
  have hnew : ∀ i : Fin 80, (s.writeSched ⟨s.t.toNat, by omega⟩ v).W[i].isSome = decide (i.val ≤ s.t.toNat) := fun i => by
    rw [State.writeSched_getElem]
    by_cases hi : i.val = s.t.toNat
    · simp [hi]
    · rw [if_neg hi, hW, schedExpected_of_expand hp hm hr.1]
      simp [le_iff_lt_or_eq, hi]
  rw [State.ready, hp] at hwork
  split
  case isTrue ht =>
    refine ⟨hH, hwork, fun i => (hnew i).trans (Eq.trans ?_ (schedExpected_of_round (.inl rfl) ?_ i).symm)⟩
    · rw [toNat_eq_79_iff.2 ht]
      exact decide_eq_true (Nat.le_of_lt_succ i.isLt)
    · exact hm
  case isFalse ht =>
    have hlt : s.t.toNat < 79 := lt_of_le_of_ne hr.2 (mt toNat_eq_79_iff.1 ht)
    have htn := toNat_add_one_of_lt hlt
    rw [hp]
    refine ⟨hH, hwork, fun i => (hnew i).trans (Eq.trans ?_ (schedExpected_of_expand rfl ?_ ?_ i).symm)⟩
    · rw [State.moveTo_t, htn]
      simp
    · exact hm
    · rw [State.moveTo_t, htn]
      omega

/-- `ROUND` leaves all five working registers and all eighty schedule words with a value (R22, R134). -/
theorem State.Inv.round_heldOk {s : State} (h : s.Inv) (hp : s.phase = .round) (r : Work) :
    (if s.t = 79 then (s.writeWork r).moveTo .fold 0 else (s.writeWork r).moveTo s.phase (s.t + 1)).HeldOk := by
  obtain ⟨-, hm⟩ := h.of_busy (by simp [hp])
  obtain ⟨-, -, -, hH, -, hW⟩ := h
  have hall : ∀ i : Fin 80, s.W[i].isSome = true := fun i => (hW i).trans (schedExpected_of_round (.inl hp) hm i)
  rw [hp]
  split
  · refine ⟨hH, ⟨rfl, rfl, rfl, rfl, rfl⟩, fun i => (hall i).trans (schedExpected_of_round (.inr rfl) ?_ i).symm⟩
    exact hm
  · refine ⟨hH, ⟨rfl, rfl, rfl, rfl, rfl⟩, fun i => (hall i).trans (schedExpected_of_round (.inl rfl) ?_ i).symm⟩
    exact hm

/-- The micro-operation of the state's own phase keeps which elements hold a value (R22, R28, R43). -/
theorem engine_heldOk {s u : State} (h : s.Inv) (he : engine s.phase s = .next u) : u.HeldOk := by
  rcases engine_cases he with ⟨-, rfl⟩ | ⟨hp, hr, v, rfl⟩ | ⟨hp, -, v, rfl⟩ | ⟨hp, rfl⟩
  · obtain ⟨-, -, -, hheld⟩ := h
    exact hheld
  · exact h.expand_heldOk hp hr v
  · exact h.round_heldOk hp v
  · refine ⟨fun i => ?_, ⟨rfl, rfl, rfl, rfl, rfl⟩, fun i => ?_⟩
    · simp [heldFive_eq, (h.of_busy (by simp [hp])).1]
    · simp [schedExpected]

/-- The micro-operation of the state's own phase keeps what the flags imply of each other (R42). -/
theorem engine_flagsOk {s u : State} (h : s.FlagsOk) (he : engine s.phase s = .next u) : u.FlagsOk := by
  obtain ⟨hd, hb⟩ := h
  obtain ⟨-, -, -, -, -, hinit⟩ := engine_frame he
  have hpos : u.phase = (nextPosition s.phase s.t).1 := congrArg Prod.fst (engine_position he)
  refine ⟨fun hd' => ?_, fun hb' => ?_⟩
  · rw [hinit, hpos]
    rcases (engine_dvalid he).1 hd' with hp | hdv
    · exact ⟨(hb (by simp [hp])).1, by simp [nextPosition, hp]⟩
    · obtain ⟨hi, hp⟩ := hd hdv
      exact ⟨hi, by simp [nextPosition, hp]⟩
  · have hp : s.phase ≠ .idle ∧ s.phase ≠ .fold := by
      rw [hpos] at hb'
      constructor <;> intro hp <;> simp [hp, nextPosition] at hb'
    obtain ⟨hi, hm⟩ := hb hp.1
    exact ⟨hinit.trans hi, by rw [engine_mvalid he, if_neg hp.2, hm]⟩

/-- The micro-operation of the state's own phase keeps the invariant (R42, R43). -/
theorem engine_inv {s u : State} (h : s.Inv) (he : engine s.phase s = .next u) : u.Inv := by
  have hheld := engine_heldOk h he
  obtain ⟨hseq, herr, hflag, -⟩ := h
  refine ⟨?_, ?_, engine_flagsOk hflag he, hheld⟩
  · obtain ⟨hp, ht⟩ := Prod.mk.inj (engine_position he)
    rw [State.SequencerOk, hp, ht]
    exact sequencerLegal_nextPosition hseq
  · obtain ⟨he', hecode, -⟩ := engine_frame he
    rw [State.ErrorOk, he', hecode]
    exact herr

/-- After the command's half of an edge the engine runs the micro-operation of the phase the command leaves, or none (R40): only
`START` moves the sequencer, and at an idle core. -/
theorem CommandLeaves.phase_eq {s c : State} (hc : CommandLeaves s c) : s.phase = .idle ∨ c.phase = s.phase := by
  rcases hc.position with ⟨ha, -⟩ | ⟨-, hp, -⟩
  · exact .inl ha.2.1
  · exact .inr hp

/-- Settles O4: a reset leaves the invariant, and otherwise each half of the edge keeps it. -/
theorem invariantKeptByEveryStep : Obligations.InvariantKeptByEveryStep := by
  intro s s' hi h
  rcases step_halves h with ⟨-, rfl⟩ | ⟨-, c, hc, he⟩
  · exact s.beginEdge.toReset_inv
  · have hci := hc.inv hi
    rcases hc.phase_eq with hp | hp
    · rw [hp, engine_idle] at he
      cases he
      exact hci
    · exact engine_inv hci (hp ▸ he)

end Sys2Proof.Machine
end

section
/-! SUPPORT. Under the invariant the engine reads only elements that hold a value (R43), so what it does is a function of the
datapath: in two states that agree on it, whatever their error records, responses, inputs and draw numbers, it does the same. -/

namespace Sys2Proof.Machine

/-- The datapath of `s` with the error record, the response, the inputs and the draw number of `r`. -/
def State.withRest (s r : State) : State :=
  { s with err := r.err, ecode := r.ecode, rsp := r.rsp, inputs := r.inputs, draws := r.draws }

/-- Two states agree on the datapath exactly when they differ in the five other fields only. -/
theorem sameDatapath_iff {s r : State} : SameDatapath s r ↔ r = s.withRest r := by
  refine ⟨fun ⟨hH, ha, hb, hc, hd, he, hW, hm, hp, ht, hi, hdv⟩ => ?_, fun h => ?_⟩
  · apply State.ext <;> simp [State.withRest, hH, ha, hb, hc, hd, he, hW, hm, hp, ht, hi, hdv]
  · rw [h]
    exact ⟨rfl, rfl, rfl, rfl, rfl, rfl, rfl, rfl, rfl, rfl, rfl, rfl⟩

theorem sameDatapath_withRest (s r : State) : SameDatapath s (s.withRest r) := sameDatapath_iff.2 rfl

theorem SameDatapath.symm {s r : State} (h : SameDatapath s r) : SameDatapath r s := by
  rw [sameDatapath_iff.1 h]
  exact sameDatapath_withRest (s.withRest r) s

theorem SameDatapath.trans {s r q : State} (h : SameDatapath s r) (h' : SameDatapath r q) : SameDatapath s q := by
  rw [sameDatapath_iff.1 h', sameDatapath_iff.1 h]
  exact sameDatapath_withRest s q

theorem SameDatapath.phase_eq {s r : State} (h : SameDatapath s r) : r.phase = s.phase := by
  rw [sameDatapath_iff.1 h, State.withRest]

/-- A read of a hash register that holds a value depends on nothing else (R14). -/
theorem State.readHash_congr {s r : State} {i : Fin 5} (h : ∃ v, s.H[i] = some v) (hr : r.H = s.H) :
    r.readHash i = s.readHash i := by
  obtain ⟨v, hv⟩ := h
  rw [State.readHash_of_held hv, State.readHash_of_held (hr ▸ hv)]

/-- A read of a schedule word that holds a value depends on nothing else (R14). -/
theorem State.readSched_congr {s r : State} {i : Fin 80} (h : ∃ v, s.W[i] = some v) (hr : r.W = s.W) :
    r.readSched i = s.readSched i := by
  obtain ⟨v, hv⟩ := h
  rw [State.readSched_of_held hv, State.readSched_of_held (hr ▸ hv)]

/-- A read of a working register that holds a value depends on nothing else (R14). -/
theorem State.readWork_congr {s r : State} {x : Config.WorkReg} (h : ∃ v, s.heldWork x = some v)
    (hr : r.heldWork x = s.heldWork x) : r.readWork x = s.readWork x := by
  obtain ⟨v, hv⟩ := h
  simp [State.readWork, hr, hv]

/-- So does the read of all five hash registers (R154). -/
theorem State.hash_congr {s r : State} (h : ∀ i : Fin 5, ∃ v, s.H[i] = some v) (hr : r.H = s.H) : r.hash = s.hash := by
  simp only [State.hash, State.readHash_congr (h _) hr]

/-- So does the read of all five working registers (R134, R139). -/
theorem State.work_congr {s r : State} (h : ∀ x, ∃ v, s.heldWork x = some v) (hr : ∀ x, r.heldWork x = s.heldWork x) :
    r.work = s.work := by
  simp only [State.work, State.readWork_congr (h _) (hr _)]

/-- Under the invariant `EXPAND` does not stop, and does the same to states that agree on the datapath (R121, R43). -/
theorem State.Inv.expand_withRest {s : State} (h : s.Inv) (hp : s.phase = .expand) (r : State) :
    ∃ u, execExpand s = .next u ∧ execExpand (s.withRest r) = .next (u.withRest r) := by
  have hr : 16 ≤ s.t.toNat ∧ s.t.toNat ≤ 79 := by simpa [State.SequencerOk, sequencerLegal, hp] using h.1
  have hpos : 0 < s.t.toNat := Nat.lt_of_lt_of_le (by decide) hr.1
  have hread : ∀ i : Fin 80, i.val < s.t.toNat → (s.withRest r).readSched i = s.readSched i := fun i hi =>
    State.readSched_congr (h.sched_held_of_expand hp i hi) rfl
  obtain ⟨x, hx, hex⟩ := execExpand_of_range hr
  obtain ⟨y, hy, hey⟩ := execExpand_of_range (s := s.withRest r) hr
  have hxy : y = x := by
    rw [hy, hx]
    congr 1 <;> exact hread _ (Nat.sub_lt hpos (by decide))
  rw [State.ite_moveTo] at hex hey
  refine ⟨_, hex, hey.trans ?_⟩
  rw [hxy]
  rfl

/-- Under the invariant the engine does the same to states that agree on the datapath, and does not stop (R41, R43). -/
theorem engine_withRest {s : State} (h : s.Inv) (r : State) :
    ∃ u, engine s.phase s = .next u ∧ engine s.phase (s.withRest r) = .next (u.withRest r) := by
  cases hp : s.phase with
  | idle => exact ⟨s, rfl, rfl⟩
  | expand => exact h.expand_withRest hp r
  | round =>
    have hb : s.phase ≠ .idle := by simp [hp]
    have h79 : s.t.toNat ≤ 79 := by simpa [State.SequencerOk, sequencerLegal, hp] using h.1
    have hr : s.t.toNat < 80 := Nat.lt_succ_of_le h79
    refine ⟨_, exec_round_of_lt hr, (exec_round_of_lt (s := s.withRest r) hr).trans ?_⟩
    rw [State.work_congr (h.work_held hb) (r := s.withRest r) fun x => by cases x <;> rfl,
      State.readSched_congr (r := s.withRest r) (h.sched_held_of_round hp _) rfl]
    rfl
  | fold =>
    have hb : s.phase ≠ .idle := by simp [hp]
    refine ⟨_, rfl, (exec_fold (s.withRest r)).trans ?_⟩
    rw [State.hash_congr (r := s.withRest r) (h.hash_held (h.of_busy hb).1) rfl,
      State.work_congr (r := s.withRest r) (h.work_held hb) fun x => by cases x <;> rfl]
    rfl

/-- Under the invariant the engine takes states that agree on the datapath to states that agree on it (R41, R43). -/
theorem engine_of_sameDatapath {s r : State} (h : s.Inv) (hs : SameDatapath s r) :
    ∃ u v, engine s.phase s = .next u ∧ engine s.phase r = .next v ∧ SameDatapath u v := by
  obtain ⟨u, hu, hr⟩ := engine_withRest h r
  rw [← sameDatapath_iff.1 hs] at hr
  exact ⟨u, _, hu, hr, sameDatapath_withRest u r⟩

/-- From a state that meets the invariant a step gives a next state (R204). -/
theorem State.Inv.step_next {s : State} (h : s.Inv) : ∃ s', step s = .next s' := by
  cases hr : s.input.rst with
  | true => exact ⟨_, step_of_rst hr⟩
  | false =>
    obtain ⟨c, hc, hs⟩ := step_eq_engine hr
    rw [hs]
    rcases hc.phase_eq with hp | hp
    · exact ⟨c, by rw [hp, engine_idle]⟩
    · obtain ⟨u, hu, -⟩ := engine_withRest (hc.inv h) c
      exact ⟨u, hp ▸ hu⟩

/-- The invariant package: a run from a state that meets it does not stop and ends in a state that meets it (R42, R204). -/
theorem State.Inv.run {s : State} (h : s.Inv) (n : Nat) : ∃ u, core.run n s = .next u ∧ u.Inv := by
  induction n generalizing s with
  | zero => exact ⟨s, by rfl, h⟩
  | succ n ih =>
    obtain ⟨s', hs⟩ := h.step_next
    obtain ⟨u, hu, hi⟩ := ih (invariantKeptByEveryStep s s' h hs)
    exact ⟨u, (core_run_succ hs n).trans hu, hi⟩

end Sys2Proof.Machine
end

section
/-! PROOF. O6: the clauses of R42, read off the invariant. -/

namespace Sys2Proof.Machine

/-- The legal positions of the sequencer, written out (R42). -/
theorem State.SequencerOk.cases {s : State} (h : s.SequencerOk) :
    (s.phase = .idle ∧ s.t = 0) ∨ (s.phase = .expand ∧ 16 ≤ s.t.toNat ∧ s.t.toNat ≤ 79) ∨
      (s.phase = .round ∧ s.t.toNat ≤ 79) ∨ (s.phase = .fold ∧ s.t = 0) := by
  cases hp : s.phase <;> simpa [State.SequencerOk, sequencerLegal, hp] using h

/-- Settles O6: the state a run begins in is one after a reset, and every state of the run meets the invariant. -/
theorem reachableStatesAreTheStatedSet : Obligations.ReachableStatesAreTheStatedSet := by
  intro ins n
  obtain ⟨s, hs, hseq, ⟨herr, hle⟩, ⟨hd, hb⟩, -⟩ := State.Inv.run ({ State.reset with inputs := ins } : State).toReset_inv n
  refine ⟨s, hs, hseq.cases, herr.symm, fun he => ⟨?_, hle⟩, hd, hb⟩
  have hne : s.ecode ≠ 0 := fun h0 => by simp [herr.2 h0] at he
  exact Nat.one_le_iff_ne_zero.2 fun h0 => hne (BitVec.eq_of_toNat_eq h0)

end Sys2Proof.Machine
end

section
/-! PROOF. O11: a step of a busy engine keeps the agreement of two states on the datapath, whatever commands are presented to
each; by induction over the edges, so does a run until the core is ready. -/

namespace Sys2Proof.Machine

theorem State.NoResetFor.input_rst {s : State} {n : Nat} (h : s.NoResetFor (n + 1)) : s.input.rst = false := by
  cases hin : s.inputs with
  | nil => simp [State.input, hin]
  | cons x l => simpa [State.input, hin] using h 0 x (Nat.succ_pos n) (by simp [hin])

/-- What a step leaves presents the rest of the inputs. -/
theorem State.NoResetFor.tail {s u : State} {n : Nat} (h : s.NoResetFor (n + 1)) (hu : u.inputs = s.inputs.tail) :
    u.NoResetFor n := fun k inp hk hinp => h (k + 1) inp (Nat.succ_lt_succ hk) (by simpa [hu] using hinp)

/-- A step takes the head of the inputs off the list, and nothing else of it (log entry 1). -/
theorem step_inputs {s u : State} (h : step s = .next u) : u.inputs = s.inputs.tail := by
  rcases step_halves h with ⟨-, rfl⟩ | ⟨-, c, hc, he⟩
  · rfl
  · obtain ⟨-, -, -, hin, -, -⟩ := engine_frame he
    exact hin.trans hc.inputs_eq

/-- A busy engine comes one edge nearer to ready (R33, R204). -/
theorem edgesToReady_of_nextPosition {s u : State} (hb : s.phase ≠ .idle) (hseq : s.SequencerOk)
    (h : (u.phase, u.t) = nextPosition s.phase s.t) : edgesToReady u + 1 = edgesToReady s := by
  rcases hseq.cases with ⟨hp, -⟩ | ⟨hp, -, h79⟩ | ⟨hp, h79⟩ | ⟨hp, -⟩
  · exact absurd hp hb
  · by_cases ht : s.t = 79
    · obtain ⟨hpu, htu⟩ : u.phase = .round ∧ u.t = 0 := by simpa [hp, ht, nextPosition] using h
      simp [edgesToReady, hp, ht, hpu, htu, Config.params]
    · have hlt : s.t.toNat < 79 := lt_of_le_of_ne h79 (mt toNat_eq_79_iff.1 ht)
      obtain ⟨hpu, htu⟩ := Prod.mk.inj (h.trans (nextPosition_of_lt hb (by simp [hp]) hlt))
      simp only [edgesToReady, hpu, hp, htu, toNat_add_one_of_lt hlt]
      omega
  · by_cases ht : s.t = 79
    · obtain ⟨hpu, htu⟩ : u.phase = .fold ∧ u.t = 0 := by simpa [hp, ht, nextPosition] using h
      simp [edgesToReady, hp, ht, hpu, Config.params]
    · have hlt : s.t.toNat < 79 := lt_of_le_of_ne h79 (mt toNat_eq_79_iff.1 ht)
      obtain ⟨hpu, htu⟩ := Prod.mk.inj (h.trans (nextPosition_of_lt hb (by simp [hp]) hlt))
      simp only [edgesToReady, hpu, hp, htu, toNat_add_one_of_lt hlt]
      omega
  · have hpu : u.phase = .idle := by simpa [hp, nextPosition] using congrArg Prod.fst h
    simp [edgesToReady, hp, hpu, Config.params]

/-- A busy edge without `rst` does the same to states that agree on the datapath, whatever each is presented (R41). -/
theorem step_of_sameDatapath {s r : State} (h : s.Inv) (hs : SameDatapath s r) (hb : s.phase ≠ .idle)
    (hrs : s.input.rst = false) (hrr : r.input.rst = false) :
    ∃ u v, step s = .next u ∧ step r = .next v ∧ SameDatapath u v := by
  have hph := hs.phase_eq
  obtain ⟨c, hc, hsc⟩ := step_eq_engine hrs
  obtain ⟨d, hd, hrd⟩ := step_eq_engine hrr
  have hcd : SameDatapath c d :=
    ((hc.sameDatapath hb).symm.trans hs).trans (hd.sameDatapath (hph ▸ hb))
  rw [hsc, hrd, hph, ← hc.phase_eq.resolve_left hb]
  exact engine_of_sameDatapath (hc.inv h) hcd

/-- Runs of a busy engine from states that agree on the datapath agree on it to the end (R41, R60). -/
theorem run_of_sameDatapath {s r : State} {k : Nat} (h : s.Inv) (hs : SameDatapath s r) (hk : k ≤ edgesToReady s)
    (hns : s.NoResetFor k) (hnr : r.NoResetFor k) :
    ∃ u v, core.run k s = .next u ∧ core.run k r = .next v ∧ SameDatapath u v := by
  induction k generalizing s r with
  | zero => exact ⟨s, r, by rfl, by rfl, hs⟩
  | succ k ih =>
    have hb : s.phase ≠ .idle := fun hp => by simp [edgesToReady, hp] at hk
    obtain ⟨u, v, hu, hv, huv⟩ := step_of_sameDatapath h hs hb hns.input_rst hnr.input_rst
    have hnear := edgesToReady_of_nextPosition hb h.1 (step_position_of_busy hu hns.input_rst hb)
    obtain ⟨x, y, hx, hy, hxy⟩ := ih (invariantKeptByEveryStep s u h hu) huv (by omega)
      (hns.tail (step_inputs hu)) (hnr.tail (step_inputs hv))
    exact ⟨x, y, (core_run_succ hu k).trans hx, (core_run_succ hv k).trans hy, hxy⟩

/-- Settles O11: the two states differ in the inputs only. -/
theorem busyEngineIgnoresTheHost : Obligations.BusyEngineIgnoresTheHost :=
  fun s ins1 ins2 _ h hk h1 h2 =>
    run_of_sameDatapath (s := { s with inputs := ins1 }) (r := { s with inputs := ins2 }) h
      (sameDatapath_withRest _ { s with inputs := ins2 }) hk h1 h2

end Sys2Proof.Machine
end

section
/-! PROOF. O7: the draw number selects free values only (log entries 3, 4), so a step that reads no element without a value does
the same at every draw number. `RDDIG` is the only command that reads one, and it checks `inited` first (R104, R196). -/

namespace Sys2Proof.Machine

/-- Under the invariant a command does the same at every draw number (R43). -/
theorem exec_command_of_draws {i : Instr} {s : State} (h : s.Inv) (hi : i.isCommand = true) (d : Nat) :
    ∃ c, exec i s = .next c ∧ exec i { s with draws := d } = .next { c with draws := d } := by
  cases i with
  | nop | rdstat | clrerr | reserved7 | reserved8to15 => exact ⟨_, rfl, rfl⟩
  | init | loadw =>
    by_cases hp : s.phase = .idle
    · exact ⟨_, if_neg (not_not_intro hp), if_neg (not_not_intro hp)⟩
    · exact ⟨_, if_pos hp, if_pos hp⟩
  | start =>
    simp only [exec, execStart]
    split
    · exact ⟨_, rfl, rfl⟩
    · split
      · exact ⟨_, rfl, rfl⟩
      · split <;> exact ⟨_, rfl, rfl⟩
  | rddig idx =>
    simp only [exec, execRddig]
    cases digestIndex idx with
    | none => exact ⟨_, rfl, rfl⟩
    | some k =>
      dsimp only
      split
      · exact ⟨_, rfl, rfl⟩
      · split
        · exact ⟨_, rfl, rfl⟩
        · next hn =>
          rw [State.readHash_congr (r := { s with draws := d }) (h.hash_held (by simpa using hn) k) rfl]
          exact ⟨_, rfl, rfl⟩
  | expand | round | fold => cases hi

/-- So does the command's half of an edge. -/
theorem takeCommand_of_draws {s : State} (h : s.Inv) (cmd : Option CmdWord) (d : Nat) :
    ∃ c, takeCommand cmd s = .next c ∧ takeCommand cmd { s with draws := d } = .next { c with draws := d } := by
  cases cmd with
  | none => exact ⟨s, rfl, rfl⟩
  | some w => exact exec_command_of_draws h (decodeCmd_isCommand w) d

/-- So does the engine's. -/
theorem engine_of_draws {s : State} (h : s.Inv) (d : Nat) :
    ∃ u, engine s.phase s = .next u ∧ engine s.phase { s with draws := d } = .next { u with draws := d } := by
  obtain ⟨u, hu, hd⟩ := engine_withRest h { s with draws := d }
  obtain ⟨herr, hecode, hrsp, hinputs, -, -⟩ := engine_frame hu
  refine ⟨u, hu, hd.trans ?_⟩
  rw [State.withRest, ← herr, ← hecode, ← hrsp, ← hinputs]

/-- Under the invariant a step does the same at every draw number (R43). -/
theorem step_of_draws {s : State} (h : s.Inv) (d : Nat) :
    ∃ s', step s = .next s' ∧ step { s with draws := d } = .next { s' with draws := d + 1 } := by
  cases hr : s.input.rst with
  | true => exact ⟨_, step_of_rst hr, step_of_rst (s := { s with draws := d }) hr⟩
  | false =>
    obtain ⟨c, hc, hcd⟩ := takeCommand_of_draws h.beginEdge s.input.cmd (d + 1)
    have hleaves := commandLeaves_of_takeCommand hr hc
    rw [step_of_takeCommand hr hc, step_of_takeCommand (s := { s with draws := d }) hr hcd]
    rcases hleaves.phase_eq with hp | hp
    · exact ⟨c, by rw [hp, engine_idle], by rw [hp, engine_idle]⟩
    · rw [← hp]
      exact engine_of_draws (hleaves.inv h) (d + 1)

/-- A `START` that is performed finds an initialised core (R103, R196). -/
theorem inited_of_firstCause_start {s : State} (h : firstCause .start s = .ok) : s.inited = true := by
  by_contra hn
  rw [Bool.not_eq_true] at hn
  by_cases hp : s.phase = .idle <;>
    simp [firstCause, illegalOp, badIndex, needsReady, needsHash, hp, hn] at h

/-- Settles O7: the step by `step_of_draws`; the port and the copy of `START` by the five held hash registers. -/
theorem noRuleReadsAnElementWithoutAValue : Obligations.NoRuleReadsAnElementWithoutAValue := by
  intro s d h
  refine ⟨step_of_draws h d, fun hi => ?_, fun s' r hx hr hok => ?_⟩
  · exact congrArg assembleDigest (State.hash_congr (h.hash_held hi) rfl)
  · obtain ⟨c, r', hc, hr', hcode, -⟩ := exec_command_next .start s rfl
    cases hx.symm.trans hc
    cases hr.symm.trans hr'
    exact h.hash_held (inited_of_firstCause_start (hcode ▸ hok))

end Sys2Proof.Machine
end

section
/-! PROOF. O12, O13, O14, O36: a step is `exec` of what is decoded; a command and a micro-operation at one edge; and where the
micro-operations stop. -/

namespace Sys2Proof.Machine

/-- The engine runs the instruction that the phase bits decode to (R80). -/
theorem engine_of_decode {p : Phase} {i : Instr} (h : decode (.phase p.bits) = .ok i) (s : State) :
    engine p s = exec i s := by
  have h' : decodePhase p.bits = .ok i := h
  rw [engine, h']

/-- A phase that selects a micro-operation is not idle (R80). -/
theorem phase_ne_idle_of_decode {p : Phase} {i : Instr} (h : decode (.phase p.bits) = .ok i) : p ≠ .idle := by
  rintro rfl
  exact nomatch h

/-- At an idle edge a command is the whole of the step (R40). -/
theorem step_of_command_idle {s c : State} {w : CmdWord} (hin : s.input = ⟨false, some w⟩) (hp : s.phase = .idle)
    (hc : exec (decodeCmd w) s.beginEdge = .next c) : step s = .next c := by
  rw [step_of_command hin hc, hp, engine_idle]

/-- Settles O12: an idle engine adds nothing to the command, and a silent host nothing to the micro-operation. -/
theorem stepRunsTheDecodedInstruction : Obligations.StepRunsTheDecodedInstruction := by
  refine fun s i => ⟨fun w hin hp hd => ?_, fun hin hd => ?_⟩
  · obtain rfl : decodeCmd w = i := Except.ok.inj hd
    obtain ⟨c, -, hc, -⟩ := exec_command_next (decodeCmd w) s.beginEdge (decodeCmd_isCommand w)
    exact (step_of_command_idle hin hp hc).trans hc.symm
  · exact (step_of_silent hin).trans (engine_of_decode hd s.beginEdge)

/-- Settles O13: what is left of such an edge is its beginning. -/
theorem silentIdleEdgeChangesNothing : Obligations.SilentIdleEdgeChangesNothing := by
  intro s hin hp
  have hs : step s = engine .idle s.beginEdge := hp ▸ step_of_silent hin
  exact hs.trans (engine_idle s.beginEdge)

/-- Settles O14: the command to a busy core writes its record and the response only, which the engine neither reads nor writes. -/
theorem commandAndMicroOperationAreDisjoint : Obligations.CommandAndMicroOperationAreDisjoint := by
  intro s e w i hin hd he
  have heng : engine s.phase s.beginEdge = .next e := (engine_of_decode hd s.beginEdge).trans he
  obtain ⟨c, -, hc, -, -, hframe⟩ := exec_command_next (decodeCmd w) s.beginEdge (decodeCmd_isCommand w)
  have hcb := hframe (phase_ne_idle_of_decode hd)
  obtain ⟨herr, hecode, hrsp, -⟩ := engine_frame heng
  refine ⟨c, hc, hcb, herr, hecode, hrsp, ?_⟩
  rw [step_of_command hin hc, hcb, engine_of_record, heng]

/-- Settles O36: in its range each of the two answers a next state, and outside it names no word. -/
theorem microOperationsStopOutsideTheLegalPositions : Obligations.MicroOperationsStopOutsideTheLegalPositions := by
  refine ⟨fun s => ⟨fun hf hr => ?_, execExpand_of_not⟩, fun s => ⟨fun hf => ?_, fun hge => ?_⟩⟩
  · obtain ⟨v, hv⟩ := exec_expand_of_range hr
    exact nomatch hf.symm.trans hv
  · by_contra hlt
    exact nomatch hf.symm.trans (exec_round_of_lt (Nat.lt_of_not_le hlt))
  · simp only [exec, execRound, roundIndex_of_ge hge]

end Sys2Proof.Machine
end

section
/-! PROOF. O37, O38, O39, O40: the decoder by the operation code, its round trip with the encoder, and the rows of the table. -/

namespace Sys2Proof

/-! The decoder, an equation for each operation code (R73, R81). -/

theorem decodeCmd_eq_nop {w : CmdWord} (h : opField w = 0) : decodeCmd w = .nop := by simp [decodeCmd, h]
theorem decodeCmd_eq_init {w : CmdWord} (h : opField w = 1) : decodeCmd w = .init := by simp [decodeCmd, h]

theorem decodeCmd_eq_loadw {w : CmdWord} (h : opField w = 2) : decodeCmd w = .loadw (idxField w) (dataField w) := by
  simp [decodeCmd, h]

theorem decodeCmd_eq_start {w : CmdWord} (h : opField w = 3) : decodeCmd w = .start := by simp [decodeCmd, h]
theorem decodeCmd_eq_rddig {w : CmdWord} (h : opField w = 4) : decodeCmd w = .rddig (idxField w) := by simp [decodeCmd, h]
theorem decodeCmd_eq_rdstat {w : CmdWord} (h : opField w = 5) : decodeCmd w = .rdstat := by simp [decodeCmd, h]
theorem decodeCmd_eq_clrerr {w : CmdWord} (h : opField w = 6) : decodeCmd w = .clrerr := by simp [decodeCmd, h]
theorem decodeCmd_eq_reserved7 {w : CmdWord} (h : opField w = 7) : decodeCmd w = .reserved7 := by simp [decodeCmd, h]

theorem decodeCmd_eq_reserved8to15 {w : CmdWord} (h : 8 ≤ (opField w).toNat) : decodeCmd w = .reserved8to15 (opField w) := by
  unfold decodeCmd
  split
  case h_9 => rfl
  all_goals omega

/-- An operation code is one of the seven of a command, 7, or 8 to 15 (R73). -/
theorem op_cases : ∀ op : BitVec 4,
    op = 0 ∨ op = 1 ∨ op = 2 ∨ op = 3 ∨ op = 4 ∨ op = 5 ∨ op = 6 ∨ op = 7 ∨ 8 ≤ op.toNat := by
  decide

/-- Settles O37: the operation code the encoder writes selects the instruction again, and its fields are read back. -/
theorem decodeOfEncodeIsTheInstruction : Obligations.DecodeOfEncodeIsTheInstruction := by
  intro i hi
  cases i with
  | nop => exact congrArg Except.ok (decodeCmd_eq_nop (opField_cmdOf 0 0 0))
  | init => exact congrArg Except.ok (decodeCmd_eq_init (opField_cmdOf 1 0 0))
  | loadw idx data => simp [encode, decode, decodeCmd_eq_loadw]
  | start => exact congrArg Except.ok (decodeCmd_eq_start (opField_cmdOf 3 0 0))
  | rddig idx => simp [encode, decode, decodeCmd_eq_rddig]
  | rdstat => exact congrArg Except.ok (decodeCmd_eq_rdstat (opField_cmdOf 5 0 0))
  | clrerr => exact congrArg Except.ok (decodeCmd_eq_clrerr (opField_cmdOf 6 0 0))
  | reserved7 => exact congrArg Except.ok (decodeCmd_eq_reserved7 (opField_cmdOf 7 0 0))
  | reserved8to15 op =>
    have h8 : 8 ≤ op.toNat := of_decide_eq_true hi
    simp [encode, decode, decodeCmd_eq_reserved8to15, h8]
  | expand | round | fold => rfl

/-- A word with zeros in every field its command does not use (R75): what an assembler emits for that command (R83). -/
def canonicalWord (w : CmdWord) : CmdWord :=
  cmdOf (opField w) (if opField w = 2 ∨ opField w = 4 then idxField w else 0) (if opField w = 2 then dataField w else 0)

@[simp] theorem opField_canonicalWord (w : CmdWord) : opField (canonicalWord w) = opField w := opField_cmdOf _ _ _

/-- Encoding what a word decodes to clears its unused fields (R75, R81, R83). -/
theorem encode_decodeCmd (w : CmdWord) : encode (decodeCmd w) = .cmd (canonicalWord w) := by
  rw [canonicalWord]
  rcases op_cases (opField w) with h | h | h | h | h | h | h | h | h
  · simp [decodeCmd_eq_nop h, encode, h]
  · simp [decodeCmd_eq_init h, encode, h]
  · simp [decodeCmd_eq_loadw h, encode, h]
  · simp [decodeCmd_eq_start h, encode, h]
  · simp [decodeCmd_eq_rddig h, encode, h]
  · simp [decodeCmd_eq_rdstat h, encode, h]
  · simp [decodeCmd_eq_clrerr h, encode, h]
  · simp [decodeCmd_eq_reserved7 h, encode, h]
  · have h2 : opField w ≠ 2 := fun he => by simp [he] at h
    have h4 : opField w ≠ 4 := fun he => by simp [he] at h
    rw [decodeCmd_eq_reserved8to15 h, encode, if_neg (not_or.2 ⟨h2, h4⟩), if_neg h2]

/-- What a word decodes to can be encoded (R81). -/
theorem decodeCmd_wellFormed (w : CmdWord) : WellFormed (decodeCmd w) := by
  rcases op_cases (opField w) with h | h | h | h | h | h | h | h | h
  · rw [decodeCmd_eq_nop h]; rfl
  · rw [decodeCmd_eq_init h]; rfl
  · rw [decodeCmd_eq_loadw h]; rfl
  · rw [decodeCmd_eq_start h]; rfl
  · rw [decodeCmd_eq_rddig h]; rfl
  · rw [decodeCmd_eq_rdstat h]; rfl
  · rw [decodeCmd_eq_clrerr h]; rfl
  · rw [decodeCmd_eq_reserved7 h]; rfl
  · rw [decodeCmd_eq_reserved8to15 h]
    exact decide_eq_true h

/-- Words decode alike exactly when they are alike without their unused fields: the round trip recovers the command (R81). -/
theorem decodeCmd_eq_iff (w u : CmdWord) : decodeCmd w = decodeCmd u ↔ canonicalWord w = canonicalWord u := by
  refine ⟨fun h => ?_, fun h => ?_⟩
  · have he := congrArg encode h
    rw [encode_decodeCmd, encode_decodeCmd] at he
    exact Code.cmd.inj he
  · have hw := decodeOfEncodeIsTheInstruction _ (decodeCmd_wellFormed w)
    have hu := decodeOfEncodeIsTheInstruction _ (decodeCmd_wellFormed u)
    rw [encode_decodeCmd, h] at hw
    rw [encode_decodeCmd] at hu
    exact Except.ok.inj (hw.symm.trans hu)

/-- A word is its three fields (R72). -/
theorem cmdOf_inj {op op' idx idx' : BitVec 4} {data data' : Word} :
    cmdOf op idx data = cmdOf op' idx' data' ↔ op = op' ∧ idx = idx' ∧ data = data' := by
  refine ⟨fun h => ⟨?_, ?_, ?_⟩, fun ⟨ho, hi, hd⟩ => by rw [ho, hi, hd]⟩
  · rw [← opField_cmdOf op idx data, h, opField_cmdOf]
  · rw [← idxField_cmdOf op idx data, h, idxField_cmdOf]
  · rw [← dataField_cmdOf op idx data, h, dataField_cmdOf]

/-- Canonical words are equal when the operation codes are, and the fields that operation uses (R75, R81). -/
theorem canonicalWord_eq_iff (w u : CmdWord) :
    canonicalWord w = canonicalWord u ↔
      opField w = opField u ∧ (opField w = 2 ∨ opField w = 4 → idxField w = idxField u) ∧
      (opField w = 2 → dataField w = dataField u) := by
  rw [canonicalWord, canonicalWord, cmdOf_inj]
  refine and_congr_right fun hop => ?_
  rw [← hop]
  split <;> split <;> simp_all

/-- Settles O38: the equations of the decoder, and canonical words. -/
theorem wordsDecodeAlikeExactlyOnUsedFields : Obligations.WordsDecodeAlikeExactlyOnUsedFields :=
  ⟨fun w => ⟨decodeCmd_wellFormed w, Machine.decodeCmd_isCommand w⟩,
    fun _ => ⟨decodeCmd_eq_nop, decodeCmd_eq_init, decodeCmd_eq_loadw, decodeCmd_eq_start, decodeCmd_eq_rddig,
      decodeCmd_eq_rdstat, decodeCmd_eq_clrerr, decodeCmd_eq_reserved7, decodeCmd_eq_reserved8to15⟩,
    fun w u => (decodeCmd_eq_iff w u).trans (canonicalWord_eq_iff w u)⟩

/-- Whether a row of the table accepts a word depends on its operation code only: every mask lies in those four bits (R85). -/
theorem accepts_eq_of_op {r : CmdRow} (hr : r ∈ cmdRows) (w : CmdWord) : r.accepts w = r.accepts (cmdOf (opField w) 0 0) := by
  have hmask : ∀ q ∈ cmdRows, 0xF000000000 &&& q.mask = q.mask := by decide
  rw [CmdRow.accepts, CmdRow.accepts, ← and_opMask, BitVec.and_assoc, hmask r hr]

/-- No operation code belongs to two rows (R85). -/
theorem rows_disjoint_on_op : ∀ op : BitVec 4, ∀ r ∈ cmdRows, ∀ q ∈ cmdRows,
    r.accepts (cmdOf op 0 0) = true → q.accepts (cmdOf op 0 0) = true → r = q := by
  decide

/-- The code of every well-formed instruction lies in its own row of the table (R73, R80, R85). -/
theorem tableRow_statement (i : Instr) : Laws.TableRow.Statement i := by
  cases i with
  | nop => exact Laws.TableRow.nop
  | init => exact Laws.TableRow.init
  | loadw idx data => exact Laws.TableRow.loadw idx data
  | start => exact Laws.TableRow.start
  | rddig idx => exact Laws.TableRow.rddig idx
  | rdstat => exact Laws.TableRow.rdstat
  | clrerr => exact Laws.TableRow.clrerr
  | reserved7 => exact Laws.TableRow.reserved7
  | reserved8to15 op => exact Laws.TableRow.reserved8to15 op
  | expand => exact Laws.TableRow.expand
  | round => exact Laws.TableRow.round
  | fold => exact Laws.TableRow.fold

/-- Settles O39: a word has the operation code of its canonical word, which lies in its own command's row. -/
theorem tableRowsAreDisjointAndTotal : Obligations.TableRowsAreDisjointAndTotal := by
  refine ⟨fun w => ?_, fun w r q hr hq hw hw' => ?_⟩
  · have hrow := tableRow_statement (decodeCmd w) (decodeCmd_wellFormed w)
    rw [encode_decodeCmd] at hrow
    obtain ⟨-, r, hr, hname, hacc⟩ := hrow
    rw [accepts_eq_of_op hr, opField_canonicalWord, ← accepts_eq_of_op hr] at hacc
    exact ⟨r, hr, hacc, hname⟩
  · rw [accepts_eq_of_op hr] at hw
    rw [accepts_eq_of_op hq] at hw'
    exact rows_disjoint_on_op (opField w) r hr q hq hw hw'

/-- Settles O40: each word's fields select the equation of the decoder. -/
theorem writtenOutWordsDecode : Obligations.WrittenOutWordsDecode :=
  ⟨decodeCmd_eq_nop rfl, decodeCmd_eq_init rfl, decodeCmd_eq_loadw rfl, decodeCmd_eq_loadw rfl, decodeCmd_eq_start rfl,
    decodeCmd_eq_rddig rfl, decodeCmd_eq_rddig rfl, decodeCmd_eq_rdstat rfl, decodeCmd_eq_clrerr rfl, decodeCmd_eq_reserved7 rfl,
    decodeCmd_eq_reserved8to15 (by decide), rfl, rfl, rfl, rfl⟩

end Sys2Proof
end

section
/-! PROOF. O19: at every edge from a legal position there is a next state, and its response is the answer to the command the edge
was presented (R40, R76). -/

namespace Sys2Proof.Machine

/-- What a performed command is answered (R76): its data, from the state it is judged in. -/
def answerData : Instr → State → Word
  | .rdstat, s => s.status
  | .rddig idx, s => (digestIndex idx).elim 0 s.readHash
  | .nop, _ | .init, _ | .loadw _ _, _ | .start, _ | .clrerr, _ | .reserved7, _ | .reserved8to15 _, _ | .expand, _
  | .round, _ | .fold, _ => 0

@[simp] theorem answerData_rddig {s : State} {idx : BitVec 4} (h : idx.toNat < 5) :
    answerData (.rddig idx) s = s.readHash ⟨idx.toNat, h⟩ := by
  simp [answerData, digestIndex_of_lt h]

theorem answerData_of_not_read {i : Instr} (hs : i ≠ .rdstat) (hd : ∀ idx, i ≠ .rddig idx) (s : State) :
    answerData i s = 0 := by
  cases i with
  | rdstat => exact absurd rfl hs
  | rddig idx => exact absurd rfl (hd idx)
  | nop | init | loadw | start | clrerr | reserved7 | reserved8to15 | expand | round | fold => rfl

/-- A `RDDIG` that is performed names a register, of an idle and initialised core (R104, R196). -/
theorem of_firstCause_rddig {s : State} {idx : BitVec 4} (h : firstCause (.rddig idx) s = .ok) :
    idx.toNat < 5 ∧ s.phase = .idle ∧ s.inited = true := by
  by_cases hidx : 5 ≤ idx.toNat
  · simp [firstCause, illegalOp, badIndex, hidx] at h
  by_cases hp : s.phase = .idle
  · by_cases hi : s.inited = true
    · exact ⟨Nat.lt_of_not_le hidx, hp, hi⟩
    · simp [firstCause, illegalOp, badIndex, needsReady, needsHash, hidx, hp, hi] at h
  · simp [firstCause, illegalOp, badIndex, needsReady, hidx, hp] at h

/-- A command is answered with its first cause, and with its data if it is performed (R76, R193, R196). -/
theorem rsp_of_exec_command {i : Instr} {s c : State} (hi : i.isCommand = true) (h : exec i s = .next c) :
    c.rsp = some ⟨firstCause i s, if firstCause i s = .ok then answerData i s else 0⟩ := by
  rcases exec_command_cases i s hi with ⟨hf, hread, -⟩ | ⟨hf, hx⟩ | ⟨hf, rfl, hx⟩ | ⟨hf, rfl, -, hx⟩ |
    ⟨hf, -, idx, data, rfl, hx⟩ | ⟨hf, rfl, -, -, -, hx⟩
  · rw [if_pos hf, hf]
    rcases hread with rfl | rfl | ⟨idx, rfl⟩
    · cases h; rfl
    · cases h; rfl
    · obtain ⟨hidx, hp, hinit⟩ := of_firstCause_rddig hf
      cases h.symm.trans (exec_rddig_of_idle hidx hp hinit)
      simp [hidx]
  · cases h.symm.trans hx
    simp [hf]
  all_goals
    cases h.symm.trans hx
    simp [hf, answerData]

/-- At a legal position the engine does not stop (R42). -/
theorem State.SequencerOk.engine_next {s : State} (h : s.SequencerOk) : ∃ u, engine s.phase s = .next u := by
  rcases h.cases with ⟨hp, -⟩ | ⟨hp, ht⟩ | ⟨hp, ht⟩ | ⟨hp, -⟩ <;> rw [hp]
  · exact ⟨s, engine_idle s⟩
  · obtain ⟨v, hx⟩ := exec_expand_of_range ht
    exact ⟨_, hx⟩
  · exact ⟨_, exec_round_of_lt (Nat.lt_succ_of_le ht)⟩
  · exact ⟨_, exec_fold s⟩

/-- At a legal position an edge gives a next state, whatever the host presents (R204). -/
theorem State.SequencerOk.step_next {s : State} (h : s.SequencerOk) : ∃ s', step s = .next s' := by
  cases hr : s.input.rst with
  | true => exact ⟨_, step_of_rst hr⟩
  | false =>
    obtain ⟨c, hc, hs⟩ := step_eq_engine hr
    rw [hs]
    rcases hc.position with ⟨ha, -⟩ | ⟨-, hp, ht⟩
    · exact ⟨c, by rw [ha.2.1, engine_idle]⟩
    · rw [← hp]
      exact State.SequencerOk.engine_next (by rwa [State.SequencerOk, hp, ht])

/-- The response of an edge is the one its command leaves: the engine writes none (R41, R76). -/
theorem step_rsp {s s' : State} (h : step s = .next s') :
    (s.input.rst = true ∨ s.input.cmd = none → s'.rsp = none) ∧
    (∀ i, s.Presents i →
      s'.rsp = some ⟨firstCause i s, if firstCause i s = .ok then answerData i s.beginEdge else 0⟩) := by
  cases hr : s.input.rst with
  | true =>
    rw [step_of_rst hr] at h
    cases h
    exact ⟨fun _ => rfl, fun i hi => by simp [State.Presents, hr] at hi⟩
  | false =>
    obtain ⟨c, hc⟩ := takeCommand_next s.input.cmd s.beginEdge
    rw [step_of_takeCommand hr hc] at h
    obtain ⟨-, -, hrsp, -⟩ := engine_frame h
    rw [hrsp]
    refine ⟨fun hn => ?_, ?_⟩
    · rw [hn.resolve_left (by simp)] at hc
      cases hc
      rfl
    · rintro _ ⟨-, w, hw, rfl⟩
      rw [hw] at hc
      exact rsp_of_exec_command (decodeCmd_isCommand w) hc

/-- Settles O19: the answer of the command presented, clause by clause. -/
theorem everyCommandIsAnsweredAtItsEdge : Obligations.EveryCommandIsAnsweredAtItsEdge := by
  intro s hok
  obtain ⟨s', h⟩ := hok.step_next
  obtain ⟨hnone, hsome⟩ := step_rsp h
  refine ⟨s', h, hnone, fun i hi => ⟨_, hsome i hi, fun hf => if_neg hf, fun hf hs => ?_, fun hf idx hidx hlt v hv => ?_,
    fun hf hs hd => ?_⟩⟩
  · rw [if_pos hf, hs]
    rfl
  · rw [if_pos hf, hidx, answerData_rddig hlt]
    exact State.readHash_of_held hv
  · rw [if_pos hf, answerData_of_not_read hs hd]

end Sys2Proof.Machine
end

section
/-! SUPPORT. The host's sessions with an idle core, a command at a time (R40, R83), and what `WAIT` does from every legal position
(R84, R204). -/

namespace Sys2Proof.Machine

/-- A command is one word, which decodes to it (R80, R83). -/
theorem commandWords_of_command {i : Instr} (hi : i.isCommand = true) (hwf : WellFormed i) :
    ∃ w, commandWords i = [w] ∧ decodeCmd w = i := by
  have hrow := tableRow_statement i hwf
  have hdec := decodeOfEncodeIsTheInstruction i hwf
  cases he : encode i with
  | cmd w =>
    rw [he] at hdec
    exact ⟨w, by rw [commandWords, he], Except.ok.inj hdec⟩
  | phase p =>
    rw [he] at hrow
    simp [hi] at hrow

/-- A command presented to an idle core is the whole of the edge (R40). -/
theorem presentAll_command_of_idle {x : Session} {i : Instr} {c : State} (hi : i.isCommand = true) (hwf : WellFormed i)
    (hp : x.block.phase = .idle) (hx : exec i { x.block with rsp := none, draws := x.block.draws + 1 } = .next c) :
    presentAll (commandWords i) x = .next ⟨c, x.responses ++ c.rsp.toList⟩ := by
  obtain ⟨w, hw, rfl⟩ := commandWords_of_command hi hwf
  have hs : step (place (.cmd w) x.block) = .next c := step_of_command_idle (s := place (.cmd w) x.block) rfl hp hx
  rw [hw, presentAll, present, hs]
  rfl

/-- A host's session goes on from `x` to `y` with an idle core, the same hash state and inputs, and these responses (R180). -/
structure StaysIdle (x y : Session) (rs : List Response) : Prop where
  responses : y.responses = x.responses ++ rs
  idle : y.block.phase = .idle
  hash : y.block.H = x.block.H
  inited : y.block.inited = x.block.inited
  inputs : y.block.inputs = x.block.inputs

theorem StaysIdle.refl {x : Session} (hp : x.block.phase = .idle) : StaysIdle x x [] :=
  ⟨(List.append_nil _).symm, hp, rfl, rfl, rfl⟩

theorem StaysIdle.trans {x y z : Session} {rs qs : List Response} (h : StaysIdle x y rs) (h' : StaysIdle y z qs) :
    StaysIdle x z (rs ++ qs) :=
  ⟨by rw [h'.responses, h.responses, List.append_assoc], h'.idle, h'.hash.trans h.hash, h'.inited.trans h.inited,
    h'.inputs.trans h.inputs⟩

/-- At a legal position every command presented is answered with a next state (R204). -/
theorem presentAll_command_next {x : Session} {i : Instr} (hi : i.isCommand = true) (hwf : WellFormed i)
    (hok : x.block.SequencerOk) : ∃ y, presentAll (commandWords i) x = .next y := by
  obtain ⟨w, hw, -⟩ := commandWords_of_command hi hwf
  obtain ⟨u, hu⟩ := State.SequencerOk.step_next (s := place (.cmd w) x.block) hok
  exact ⟨⟨u, x.responses ++ u.rsp.toList⟩, by rw [hw, presentAll, present, hu]; rfl⟩

/-- The engine takes a legal position to a legal position (R33, R42). -/
theorem State.SequencerOk.engine {s u : State} (h : s.SequencerOk) (he : engine s.phase s = .next u) : u.SequencerOk := by
  obtain ⟨hp, ht⟩ := Prod.mk.inj (engine_position he)
  rw [State.SequencerOk, hp, ht]
  exact sequencerLegal_nextPosition h

/-- The status word says ready exactly of an idle core (R78). -/
theorem status_ready_iff (s : State) : s.status.getLsbD 0 = true ↔ s.phase = .idle := by
  rw [status_getLsbD_zero, State.ready, decide_eq_true_iff]

theorem edgesToReady_of_idle {s : State} (hp : s.phase = .idle) : edgesToReady s = 0 := by
  rw [edgesToReady, hp]

/-- No legal position is more than `T_BUSY` edges from ready (R204, R236). -/
theorem State.SequencerOk.edgesToReady_le {s : State} (h : s.SequencerOk) : edgesToReady s ≤ Config.tBusy := by
  rcases h.cases with ⟨hp, -⟩ | ⟨hp, h16, -⟩ | ⟨hp, -⟩ | ⟨hp, -⟩ <;>
    simp only [edgesToReady, hp, Config.tBusy, Config.params] <;> omega

/-- A condition on the datapath that the engine keeps at every legal position. -/
def EngineKeeps (P : State → Prop) : Prop :=
  (∀ s u, SameDatapath s u → P s → P u) ∧ ∀ s u, s.SequencerOk → P s → engine s.phase s = .next u → P u

/-- A `WAIT` that began in session `x` ended in `y`, having had these responses (R84): all but the last say busy. -/
structure Waited (x y : Session) (polls : List Response) : Prop where
  responses : y.responses = x.responses ++ polls
  count : polls.length = edgesToReady x.block + 1
  answers : ∀ k r, polls[k]? = some r → r.code = .ok ∧ (r.data.getLsbD 0 = true ↔ k = edgesToReady x.block)
  idle : y.block.phase = .idle
  status : y.block.rsp = some ⟨.ok, y.block.status⟩
  inputs : y.block.inputs = x.block.inputs

/-- One poll of an idle core is a `WAIT`. -/
theorem Waited.of_idle {x y : Session} (hp : x.block.phase = .idle)
    (hr : y.responses = x.responses ++ [⟨.ok, x.block.status⟩])
    (hb : y.block = { x.block with rsp := some ⟨.ok, x.block.status⟩, draws := x.block.draws + 1 }) :
    Waited x y [⟨.ok, x.block.status⟩] where
  responses := hr
  count := by rw [edgesToReady_of_idle hp]; rfl
  answers k r hk := by
    obtain ⟨rfl, rfl⟩ : k = 0 ∧ r = ⟨.ok, x.block.status⟩ := by simpa [List.getElem?_singleton, eq_comm] using hk
    exact ⟨rfl, iff_of_true ((status_ready_iff _).2 hp) (edgesToReady_of_idle hp).symm⟩
  idle := by rw [hb]; exact hp
  status := by rw [hb]; rfl
  inputs := by rw [hb]

/-- One poll of a busy core, which brings it one edge nearer to ready, and a `WAIT` from there are a `WAIT`. -/
theorem Waited.of_busy {x y z : Session} {polls : List Response} (h : Waited y z polls) (hp : x.block.phase ≠ .idle)
    (hr : y.responses = x.responses ++ [⟨.ok, x.block.status⟩]) (hin : y.block.inputs = x.block.inputs)
    (hk : edgesToReady y.block + 1 = edgesToReady x.block) : Waited x z (⟨.ok, x.block.status⟩ :: polls) where
  responses := by rw [h.responses, hr, List.append_assoc, List.singleton_append]
  count := by rw [List.length_cons, h.count, hk]
  answers k r hkr := by
    rw [← hk]
    cases k with
    | zero =>
      obtain rfl : ⟨.ok, x.block.status⟩ = r := Option.some.inj hkr
      exact ⟨rfl, iff_of_false (mt (status_ready_iff _).1 hp) (Nat.succ_ne_zero _).symm⟩
    | succ k => simpa using h.answers k r hkr
  idle := h.idle
  status := h.status
  inputs := h.inputs.trans hin

/-- Polling from a legal position ends as `WAIT` does, and keeps what the engine keeps (R84). -/
theorem poll_waited {P : State → Prop} (hP : EngineKeeps P) {n : Nat} {x : Session} (hn : edgesToReady x.block < n)
    (hok : x.block.SequencerOk) (hx : P x.block) :
    ∃ y polls, poll n x = .next y ∧ Waited x y polls ∧ P y.block := by
  obtain ⟨hdata, heng⟩ := hP
  induction n generalizing x with
  | zero => exact absurd hn (Nat.not_lt_zero _)
  | succ n ih =>
    rcases rdstat_cases x with ⟨hp, y, hy, hready, hr, hb⟩ | ⟨hp, y, e, hy, hbusy, hr, he, hb, hk⟩ | ⟨-, f, hf⟩
    · refine ⟨y, _, ?_, .of_idle hp hr hb, hdata x.block _ ?_ hx⟩
      · simp [poll, hy, hready]
      · rw [hb]
        exact sameDatapath_withRest x.block { x.block with rsp := some ⟨.ok, x.block.status⟩, draws := x.block.draws + 1 }
    · let s0 : State := { x.block with rsp := none, draws := x.block.draws + 1 }
      have hs0 : P s0 := hdata x.block _ (sameDatapath_withRest x.block s0) hx
      have hye : SameDatapath e y.block := by
        rw [hb]
        exact sameDatapath_withRest e { e with rsp := some ⟨.ok, x.block.status⟩ }
      have hoke : e.SequencerOk := State.SequencerOk.engine (s := s0) hok he
      have hoky : y.block.SequencerOk := by rw [hb]; exact hoke
      obtain ⟨-, -, -, hin, -, -⟩ := engine_frame he
      obtain ⟨z, polls, hz, hw, hPz⟩ := ih (by omega) hoky (hdata e _ hye (heng s0 e hok hs0 he))
      refine ⟨z, _, ?_, hw.of_busy hp hr ?_ hk, hPz⟩
      · simp [poll, hy, hbusy, hz]
      · rw [hb]
        exact hin
    · obtain ⟨y, hy⟩ := presentAll_command_next (i := .rdstat) rfl rfl hok
      exact nomatch hf.symm.trans hy

/-- `WAIT` from a legal position ends with a ready core, and keeps what the engine keeps (R84, R204). -/
theorem runWait_waited {P : State → Prop} (hP : EngineKeeps P) {x : Session} (hok : x.block.SequencerOk)
    (hx : P x.block) : ∃ y polls, runWait x = .next y ∧ Waited x y polls ∧ P y.block :=
  poll_waited hP (Nat.lt_succ_of_le hok.edgesToReady_le) hok hx

end Sys2Proof.Machine
end

section
/-! PROOF. O55: the expansions are the model's own lists of words; `WAIT` is counted by `Waited`; and the five reads of `RDDIGEST`
answer the five registers. -/

namespace Sys2Proof.Machine

/-- `LOADBLK` is sixteen `LOADW` in index order (R84). -/
theorem run_loadblk (m : Vector Word 16) (x : Session) : (AsmLine.loadblk m).run x = runLines
    [.command (.loadw 0 m[0]), .command (.loadw 1 m[1]), .command (.loadw 2 m[2]), .command (.loadw 3 m[3]),
      .command (.loadw 4 m[4]), .command (.loadw 5 m[5]), .command (.loadw 6 m[6]), .command (.loadw 7 m[7]),
      .command (.loadw 8 m[8]), .command (.loadw 9 m[9]), .command (.loadw 10 m[10]), .command (.loadw 11 m[11]),
      .command (.loadw 12 m[12]), .command (.loadw 13 m[13]), .command (.loadw 14 m[14]), .command (.loadw 15 m[15])] x :=
  (runLines_commands [.loadw 0 m[0], .loadw 1 m[1], .loadw 2 m[2], .loadw 3 m[3], .loadw 4 m[4], .loadw 5 m[5],
    .loadw 6 m[6], .loadw 7 m[7], .loadw 8 m[8], .loadw 9 m[9], .loadw 10 m[10], .loadw 11 m[11], .loadw 12 m[12],
    .loadw 13 m[13], .loadw 14 m[14], .loadw 15 m[15]] x).symm

/-- `NOPS n` is `NOP` repeated (R84). -/
theorem run_nops (n : Nat) (x : Session) : (AsmLine.nops n).run x = runLines (List.replicate n (.command .nop)) x := by
  rw [← List.map_replicate, runLines_commands]
  rfl

/-- `HASHBLK` is `LOADBLK`, `START`, `WAIT` (R84). -/
theorem run_hashblk (m : Vector Word 16) (x : Session) :
    (AsmLine.hashblk m).run x = runLines [.loadblk m, .command .start, .wait] x := by
  have hwait : runLines [.wait] = runWait := funext fun y => runLines_singleton .wait y
  change sessionThen (presentAll (loadblkWords m ++ commandWords .start) x) runWait =
    sessionThen (presentAll (loadblkWords m) x) fun y => sessionThen (presentAll (commandWords .start) y) (runLines [.wait])
  rw [presentAll_append, sessionThen_assoc, hwait]

/-- `RDDIGEST` is five `RDDIG` (R84). -/
theorem run_rddigest (x : Session) : AsmLine.rddigest.run x = runLines
    [.command (.rddig 0), .command (.rddig 1), .command (.rddig 2), .command (.rddig 3), .command (.rddig 4)] x :=
  (runLines_commands [.rddig 0, .rddig 1, .rddig 2, .rddig 3, .rddig 4] x).symm

/-- `RDDIG` of register `i` of an idle, initialised core answers what it holds and keeps it (R104). -/
theorem presentAll_rddig {x : Session} {h : Vector Word 5} (hp : x.block.phase = .idle) (hi : x.block.inited = true)
    (hh : x.block.H = h.map some) (i : Fin 5) :
    ∃ y, presentAll (commandWords (.rddig (BitVec.ofNat 4 i.val))) x = .next y ∧ StaysIdle x y [⟨.ok, h[i]⟩] := by
  let s0 : State := { x.block with rsp := none, draws := x.block.draws + 1 }
  have hval : (BitVec.ofNat 4 i.val).toNat = i.val := Nat.mod_eq_of_lt (by omega)
  have hread : s0.readHash i = h[i] := State.readHash_of_held (by simp [s0, hh])
  have hx : exec (.rddig (BitVec.ofNat 4 i.val)) s0 = .next (s0.respond .ok h[i]) := by
    rw [exec_rddig_of_idle (s := s0) (hval.trans_lt i.isLt) hp hi]
    simp only [hval, hread]
  exact ⟨_, presentAll_command_of_idle rfl rfl hp hx, rfl, hp, rfl, rfl, rfl⟩

/-- Reads of registers of an idle, initialised core, one after another, answer what they hold, in order (R104). -/
theorem presentAll_rddigs {h : Vector Word 5} (is : List (Fin 5)) {x : Session} (hp : x.block.phase = .idle)
    (hi : x.block.inited = true) (hh : x.block.H = h.map some) :
    ∃ y, presentAll (is.flatMap fun i => commandWords (.rddig (BitVec.ofNat 4 i.val))) x = .next y ∧
      StaysIdle x y (is.map fun i => ⟨.ok, h[i]⟩) := by
  induction is generalizing x with
  | nil => exact ⟨x, rfl, .refl hp⟩
  | cons i is ih =>
    obtain ⟨y, hy, hxy⟩ := presentAll_rddig hp hi hh i
    obtain ⟨z, hz, hyz⟩ := ih hxy.idle (hxy.inited.trans hi) (hxy.hash.trans hh)
    refine ⟨z, ?_, hxy.trans hyz⟩
    rw [List.flatMap_cons, presentAll_append, hy, sessionThen_next, hz]

/-- The digest is read off the five latest responses (R84). -/
theorem rddigestValue_append (rs : List Response) (d0 d1 d2 d3 d4 : Word) :
    rddigestValue (rs ++ [⟨.ok, d0⟩, ⟨.ok, d1⟩, ⟨.ok, d2⟩, ⟨.ok, d3⟩, ⟨.ok, d4⟩]) = some (d0 ++ d1 ++ d2 ++ d3 ++ d4) := by
  simp [rddigestValue]

/-- An initialised core holds five words (R28). -/
theorem State.Inv.exists_hash {s : State} (h : s.Inv) (hi : s.inited = true) : ∃ v : Vector Word 5, s.H = v.map some := by
  refine ⟨Vector.ofFn s.readHash, Vector.ext fun i hlt => ?_⟩
  obtain ⟨v, hv⟩ := h.hash_held hi ⟨i, hlt⟩
  rw [Vector.getElem_map, Vector.getElem_ofFn, State.readHash_of_held hv]
  exact hv

/-- `RDDIGEST` reads the digest the port shows (R84, R162). -/
theorem run_rddigest_digest {x : Session} (h : x.block.Inv) (hp : x.block.phase = .idle) (hi : x.block.inited = true) :
    ∃ y : Session, AsmLine.rddigest.run x = .next y ∧ rddigestValue y.responses = some x.block.digestPort := by
  obtain ⟨v, hv⟩ := h.exists_hash hi
  obtain ⟨y, hy, hxy⟩ := presentAll_rddigs (List.finRange 5) hp hi hv
  refine ⟨y, hy, ?_⟩
  rw [hxy.responses, State.digestPort, State.hash_of_held hv]
  exact rddigestValue_append x.responses v[0] v[1] v[2] v[3] v[4]

/-- Settles O55: one lemma for each pseudo-instruction. -/
theorem pseudoInstructionsExpandAsStated : Obligations.PseudoInstructionsExpandAsStated := by
  refine ⟨run_loadblk, run_nops, fun x hok => ?_, run_hashblk, run_rddigest, fun x h hp hi => run_rddigest_digest h hp hi⟩
  obtain ⟨y, polls, hy, hw, -⟩ := runWait_waited (P := fun _ => True) ⟨fun _ _ _ _ => trivial, fun _ _ _ _ _ => trivial⟩
    hok trivial
  refine ⟨y, polls, hy, hw.responses, hw.count, hw.answers, hw.idle, fun hp => ?_, fun hp ht => ?_⟩
  · rw [hw.count, edgesToReady_of_idle hp]
  · rw [hw.count, edgesToReady, hp, ht]
    rfl

end Sys2Proof.Machine
end

section
/-! SUPPORT. The schedule and the rounds of a chunk, a word and a round at a time (R120, R122, R133): what one `EXPAND` and one
`ROUND` add. -/

namespace Sys2Proof.Machine

theorem length_extendSchedule (n : Nat) (ws : List Word) : (extendSchedule n ws).length = ws.length + n := by
  induction n generalizing ws with
  | zero => rfl
  | succ n ih =>
    rw [extendSchedule, ih, List.length_append, List.length_singleton]
    omega

/-- Extending a schedule leaves the words it has (R123). -/
theorem getD_extendSchedule_of_lt (n : Nat) {ws : List Word} {i : Nat} (h : i < ws.length) :
    (extendSchedule n ws).getD i 0 = ws.getD i 0 := by
  induction n generalizing ws with
  | zero => rfl
  | succ n ih =>
    rw [extendSchedule, ih (by rw [List.length_append]; omega), List.getD_append _ _ _ _ h]

/-- Every word a schedule is extended by follows from the words 3, 8, 14 and 16 places before it (R120). -/
theorem getD_extendSchedule_of_ge (n : Nat) {ws : List Word} {i : Nat} (h16 : 16 ≤ ws.length) (hi : ws.length ≤ i)
    (hlt : i < ws.length + n) :
    (extendSchedule n ws).getD i 0 =
      expandFn ((extendSchedule n ws).getD (i - 3) 0) ((extendSchedule n ws).getD (i - 8) 0)
        ((extendSchedule n ws).getD (i - 14) 0) ((extendSchedule n ws).getD (i - 16) 0) := by
  induction n generalizing ws with
  | zero => omega
  | succ n ih =>
    rw [extendSchedule]
    have hlen : (ws ++ [nextWord ws]).length = ws.length + 1 := by simp
    by_cases he : i = ws.length
    · have hold : ∀ k, 0 < k → (extendSchedule n (ws ++ [nextWord ws])).getD (i - k) 0 = ws.getD (ws.length - k) 0 := by
        intro k hk
        rw [getD_extendSchedule_of_lt n (by omega), List.getD_append _ _ _ _ (by omega), he]
      rw [hold 3 (by decide), hold 8 (by decide), hold 14 (by decide), hold 16 (by decide),
        getD_extendSchedule_of_lt n (by omega), he, List.getD_append_right _ _ _ _ le_rfl, Nat.sub_self]
      rfl
    · exact ih (by omega) (by omega) (by omega)

theorem length_schedule (m : Vector Word 16) : (schedule m).length = 80 := by
  rw [schedule, length_extendSchedule, Vector.length_toList]

/-- Words 0 to 15 of the schedule are the chunk (R122). -/
theorem getD_schedule_chunk (m : Vector Word 16) (i : Fin 16) : (schedule m).getD i.val 0 = m[i] := by
  rw [schedule, getD_extendSchedule_of_lt 64 (by simp)]
  simp

/-- Words 16 to 79 of the schedule follow the recurrence (R120). -/
theorem getD_schedule_derived (m : Vector Word 16) {i : Nat} (h16 : 16 ≤ i) (h79 : i ≤ 79) :
    (schedule m).getD i 0 = expandFn ((schedule m).getD (i - 3) 0) ((schedule m).getD (i - 8) 0)
      ((schedule m).getD (i - 14) 0) ((schedule m).getD (i - 16) 0) :=
  getD_extendSchedule_of_ge 64 (by simp) (by simpa using h16) (by simp; omega)

/-- The last of a list of rounds (R133, R134). -/
theorem runRounds_append_singleton (t : Nat) (r : Work) (ws : List Word) (w : Word) :
    runRounds t r (ws ++ [w]) = roundFn (t + ws.length) (runRounds t r ws) w := by
  induction ws generalizing t r with
  | nil => rfl
  | cons v ws ih =>
    rw [List.cons_append, runRounds, ih, runRounds, List.length_cons]
    congr 1
    omega

/-- Round `t` of a list of words, after the rounds before it (R134). -/
theorem runRounds_take_succ (r : Work) {ws : List Word} {t : Nat} (h : t < ws.length) :
    runRounds 0 r (ws.take (t + 1)) = roundFn t (runRounds 0 r (ws.take t)) (ws.getD t 0) := by
  rw [← List.take_append_getElem h, runRounds_append_singleton, List.length_take_of_le h.le, Nat.zero_add,
    List.getD_eq_getElem _ _ h]

end Sys2Proof.Machine
end

section
/-! SUPPORT. A chunk in flight (R140): what the engine has computed at each position of the sequencer, kept by every
micro-operation, so that the chunk is compressed when the core is idle again. -/

namespace Sys2Proof.Machine

/-- How many words of the schedule store are in place at a position of a busy sequencer (R43). -/
def wordsDone : Phase → BitVec 7 → Nat
  | .expand, t => t.toNat
  | .idle, _ | .round, _ | .fold, _ => 80

/-- How many rounds are done at a position of a busy sequencer (R33, R134). -/
def roundsDone : Phase → BitVec 7 → Nat
  | .round, t => t.toNat
  | .fold, _ => 80
  | .idle, _ | .expand, _ => 0

/-- The working registers hold these five values (R22). -/
def State.WorkHolds (s : State) (r : Work) : Prop :=
  s.a = some r.a ∧ s.b = some r.b ∧ s.c = some r.c ∧ s.d = some r.d ∧ s.e = some r.e

theorem State.WorkHolds.work_eq {s : State} {r : Work} (h : s.WorkHolds r) : s.work = r := by
  obtain ⟨ha, hb, hc, hd, he⟩ := h
  exact State.work_of_held ha hb hc hd he

/-- The core holds hash state `h`, the words of the schedule of `m` that are in place, and in its working registers the result of
the rounds that are done (R140). -/
structure State.Computes (s : State) (h : Vector Word 5) (m : Vector Word 16) : Prop where
  hash : s.H = h.map some
  sched : ∀ i : Fin 80, i.val < wordsDone s.phase s.t → s.W[i] = some ((schedule m).getD i.val 0)
  work : s.WorkHolds (runRounds 0 (workOfHash h) ((schedule m).take (roundsDone s.phase s.t)))

/-- `EXPAND` puts word `t` in place, and does no round (R33, R121). -/
theorem done_after_expand {t : BitVec 7} (h79 : t.toNat ≤ 79) {p : Phase} {n : BitVec 7}
    (h : (p, n) = nextPosition .expand t) : wordsDone p n = t.toNat + 1 ∧ roundsDone p n = 0 := by
  by_cases ht : t = 79
  · obtain ⟨rfl, rfl⟩ : p = .round ∧ n = 0 := by simpa [nextPosition, ht] using h
    exact ⟨by rw [toNat_eq_79_iff.2 ht]; rfl, rfl⟩
  · have hlt : t.toNat < 79 := lt_of_le_of_ne h79 (mt toNat_eq_79_iff.1 ht)
    obtain ⟨rfl, rfl⟩ := Prod.mk.inj (h.trans (nextPosition_of_lt (by simp) (by simp) hlt))
    exact ⟨toNat_add_one_of_lt hlt, rfl⟩

/-- `ROUND` does round `t`, with the schedule in place (R33, R134). -/
theorem done_after_round {t : BitVec 7} (h79 : t.toNat ≤ 79) {p : Phase} {n : BitVec 7}
    (h : (p, n) = nextPosition .round t) : wordsDone p n = 80 ∧ roundsDone p n = t.toNat + 1 := by
  by_cases ht : t = 79
  · obtain ⟨rfl, rfl⟩ : p = .fold ∧ n = 0 := by simpa [nextPosition, ht] using h
    exact ⟨rfl, by rw [toNat_eq_79_iff.2 ht]; rfl⟩
  · have hlt : t.toNat < 79 := lt_of_le_of_ne h79 (mt toNat_eq_79_iff.1 ht)
    obtain ⟨rfl, rfl⟩ := Prod.mk.inj (h.trans (nextPosition_of_lt (by simp) (by simp) hlt))
    exact ⟨rfl, toNat_add_one_of_lt hlt⟩

section
variable {s u : State} {h : Vector Word 5} {m : Vector Word 16} (hs : s.Computes h m)
include hs

/-- `EXPAND` writes the next word of the schedule (R121). -/
theorem State.Computes.expand (hp : s.phase = .expand) (hr : 16 ≤ s.t.toNat ∧ s.t.toNat ≤ 79)
    (he : engine s.phase s = .next u) : u.Computes h m := by
  obtain ⟨hwords, hrounds⟩ := done_after_expand hr.2 (hp ▸ engine_position he)
  obtain ⟨hash, sched, work⟩ := hs
  rw [hp] at sched work
  have hread : ∀ k (hk : s.t.toNat - k < 80), 0 < k →
      s.readSched ⟨s.t.toNat - k, hk⟩ = (schedule m).getD (s.t.toNat - k) 0 :=
    fun k hk hpos => State.readSched_of_held (sched _ (Nat.sub_lt (by omega) hpos))
  obtain ⟨v, hv, hx⟩ := execExpand_of_range hr
  rw [hread 3 _ (by decide), hread 8 _ (by decide), hread 14 _ (by decide), hread 16 _ (by decide),
    ← getD_schedule_derived m hr.1 hr.2] at hv
  rw [State.ite_moveTo] at hx
  rw [hp, engine_expand, hx] at he
  cases he
  refine ⟨hash, fun i hi => ?_, by rw [hrounds]; exact work⟩
  rw [hwords] at hi
  rw [State.moveTo_W, State.writeSched_getElem]
  split
  case isTrue heq => rw [hv, heq]
  case isFalse hne => exact sched i (lt_of_le_of_ne (Nat.le_of_lt_succ hi) hne)

/-- `ROUND` does the next round on the next word of the schedule (R134). -/
theorem State.Computes.round (hp : s.phase = .round) (h79 : s.t.toNat ≤ 79) (he : engine s.phase s = .next u) :
    u.Computes h m := by
  obtain ⟨hwords, hrounds⟩ := done_after_round h79 (hp ▸ engine_position he)
  obtain ⟨hash, sched, work⟩ := hs
  rw [hp] at sched work
  have hlt : s.t.toNat < 80 := Nat.lt_succ_of_le h79
  have hnext : roundFn s.t.toNat s.work (s.readSched ⟨s.t.toNat, hlt⟩) =
      runRounds 0 (workOfHash h) ((schedule m).take (s.t.toNat + 1)) := by
    rw [work.work_eq, State.readSched_of_held (sched _ hlt), runRounds_take_succ _ (by rw [length_schedule]; exact hlt)]
    rfl
  have hx := execRound_of_lt hlt
  rw [State.ite_moveTo, hnext] at hx
  rw [hp, engine_round, hx] at he
  cases he
  exact ⟨hash, fun i _ => sched i i.isLt, by rw [hrounds]; exact ⟨rfl, rfl, rfl, rfl, rfl⟩⟩

/-- `FOLD` adds the result of the eighty rounds into the hash state (R139, R140). -/
theorem State.Computes.fold (hp : s.phase = .fold) (he : engine s.phase s = .next u) :
    u.H = (compress h m).map some ∧ u.dvalid = true := by
  obtain ⟨hash, -, work⟩ := hs
  rw [hp, show roundsDone .fold s.t = (schedule m).length from (length_schedule m).symm, List.take_length] at work
  rw [hp, engine_fold, execFold] at he
  cases he
  refine ⟨?_, rfl⟩
  rw [State.endChunk_H, State.discardChunk_H, State.foldHash_H, heldFive_eq, State.hash_of_held hash, work.work_eq, compress]

end

/-- An initialised core that is busy computes the chunk, and has compressed it when it is idle (R140). -/
def ChunkProgress (h : Vector Word 5) (m : Vector Word 16) (s : State) : Prop :=
  s.inited = true ∧ (s.phase ≠ .idle → s.Computes h m) ∧
    (s.phase = .idle → s.H = (compress h m).map some ∧ s.dvalid = true)

/-- `EXPAND` and `ROUND` leave the core busy (R33). -/
theorem nextPosition_ne_idle {p : Phase} {t : BitVec 7} (h : p = .expand ∨ p = .round) : (nextPosition p t).1 ≠ .idle := by
  rcases h with rfl | rfl <;> rw [nextPosition] <;> split <;> simp

/-- The engine keeps the progress of a chunk to its end (R140). -/
theorem engineKeeps_chunkProgress (h : Vector Word 5) (m : Vector Word 16) : EngineKeeps (ChunkProgress h m) := by
  refine ⟨fun s u hsu hs => ?_, fun s u hok ⟨hi, hbusy, hidle⟩ he => ?_⟩
  · rw [sameDatapath_iff.1 hsu]
    obtain ⟨hi, hbusy, hidle⟩ := hs
    exact ⟨hi, fun hp => ⟨(hbusy hp).hash, (hbusy hp).sched, (hbusy hp).work⟩, hidle⟩
  · obtain ⟨-, -, -, -, -, hinit⟩ := engine_frame he
    have hpos : u.phase = (nextPosition s.phase s.t).1 := congrArg Prod.fst (engine_position he)
    refine ⟨hinit.trans hi, ?_⟩
    rcases hok.cases with ⟨hp, -⟩ | ⟨hp, hr⟩ | ⟨hp, h79⟩ | ⟨hp, -⟩
    · rw [hp, engine_idle] at he
      cases he
      exact ⟨hbusy, hidle⟩
    · have hu := (hbusy (by simp [hp])).expand hp hr he
      exact ⟨fun _ => hu, fun hn => absurd (hpos.symm.trans hn) (nextPosition_ne_idle (.inl hp))⟩
    · have hu := (hbusy (by simp [hp])).round hp h79 he
      exact ⟨fun _ => hu, fun hn => absurd (hpos.symm.trans hn) (nextPosition_ne_idle (.inr hp))⟩
    · have hu := (hbusy (by simp [hp])).fold hp he
      have hpu : u.phase = .idle := by rw [hpos, hp, nextPosition]
      exact ⟨(absurd hpu ·), fun _ => hu⟩

end Sys2Proof.Machine
end

section
/-! PROOF. O53: sixteen `LOADW` load the chunk, `START` begins it, and `WAIT` ends it (R84, R140). -/

namespace Sys2Proof.Machine

/-- Word `i` of the block buffer is loaded with that of the chunk (R25). -/
def State.Loaded (s : State) (m : Vector Word 16) (i : Fin 16) : Prop :=
  s.W[i.val] = some m[i] ∧ s.mvalid.getLsbD i.val = true

/-- `LOADW` of a word of the chunk loads it and keeps the others that are loaded (R102). -/
theorem State.loadWord_loaded (s : State) (m : Vector Word 16) (i j : Fin 16) (h : j = i ∨ s.Loaded m j) :
    (s.loadWord (BitVec.ofNat 4 i.val) m[i]).Loaded m j := by
  have hval : (BitVec.ofNat 4 i.val).toNat = i.val := Nat.mod_eq_of_lt i.isLt
  have hW := State.loadWord_getElem s (BitVec.ofNat 4 i.val) m[i] ⟨j.val, by omega⟩
  have hm := getLsbD_markLoaded s.mvalid (BitVec.ofNat 4 i.val) j.val j.isLt
  rw [hval] at hW hm
  refine ⟨Eq.trans hW ?_, Eq.trans hm ?_⟩
  · by_cases he : j = i
    · rw [if_pos (congrArg Fin.val he), he]
    · rw [if_neg (mt Fin.ext he)]
      exact (h.resolve_left he).1
  · by_cases he : j = i
    · simp [he]
    · simp [(h.resolve_left he).2]

/-- `LOADW` of word `i` of the chunk to an idle core (R102). -/
theorem presentAll_loadw {x : Session} (hp : x.block.phase = .idle) (m : Vector Word 16) (i : Fin 16) :
    ∃ y, presentAll (commandWords (.loadw (BitVec.ofNat 4 i.val) m[i])) x = .next y ∧ StaysIdle x y [⟨.ok, 0⟩] ∧
      ∀ j, j = i ∨ x.block.Loaded m j → y.block.Loaded m j := by
  let s0 : State := { x.block with rsp := none, draws := x.block.draws + 1 }
  have hx : exec (.loadw (BitVec.ofNat 4 i.val) m[i]) s0 = .next ((s0.loadWord (BitVec.ofNat 4 i.val) m[i]).respond .ok 0) :=
    if_neg (not_not_intro hp)
  exact ⟨_, presentAll_command_of_idle rfl rfl hp hx, ⟨rfl, hp, rfl, rfl, rfl⟩, fun j hj => s0.loadWord_loaded m i j hj⟩

/-- `LOADW` of a list of words of the chunk loads them all (R84, R102). -/
theorem presentAll_loadws (m : Vector Word 16) (is : List (Fin 16)) {x : Session} (hp : x.block.phase = .idle) :
    ∃ y, presentAll (is.flatMap fun i => commandWords (.loadw (BitVec.ofNat 4 i.val) m[i])) x = .next y ∧
      StaysIdle x y (List.replicate is.length ⟨.ok, 0⟩) ∧ ∀ j, j ∈ is ∨ x.block.Loaded m j → y.block.Loaded m j := by
  induction is generalizing x with
  | nil => exact ⟨x, rfl, .refl hp, fun j hj => hj.resolve_left List.not_mem_nil⟩
  | cons i is ih =>
    obtain ⟨y, hy, hxy, hload⟩ := presentAll_loadw hp m i
    obtain ⟨z, hz, hyz, hloads⟩ := ih hxy.idle
    refine ⟨z, ?_, hxy.trans hyz, fun j hj => hloads j ?_⟩
    · rw [List.flatMap_cons, presentAll_append, hy, sessionThen_next, hz]
    · rcases hj with hj | hj
      · exact (List.mem_cons.1 hj).symm.imp_right fun he => hload j (.inl he)
      · exact .inr (hload j (.inr hj))

/-- With every word loaded `mvalid` is full (R25, R103). -/
theorem mvalid_full_of_loaded {s : State} {m : Vector Word 16} (h : ∀ j, s.Loaded m j) : s.mvalid = 0xFFFF :=
  BitVec.eq_of_getLsbD_eq fun i hi => ((h ⟨i, hi⟩).2).trans (getLsbD_full rfl hi).symm

/-- `LOADBLK` to an idle core loads the chunk (R84, R102). -/
theorem presentAll_loadblk (m : Vector Word 16) {x : Session} (hp : x.block.phase = .idle) :
    ∃ y, presentAll (loadblkWords m) x = .next y ∧ StaysIdle x y (List.replicate 16 ⟨.ok, 0⟩) ∧
      ∀ j, y.block.Loaded m j := by
  obtain ⟨y, hy, hxy, hload⟩ := presentAll_loadws m (List.finRange 16) hp
  exact ⟨y, hy, hxy, fun j => hload j (.inl (List.mem_finRange j))⟩

/-- What a performed `START` of a loaded chunk leaves: the first position of the chunk (R103, R140). -/
theorem computes_of_start {s : State} {h : Vector Word 5} {m : Vector Word 16} (hh : s.H = h.map some)
    (hload : ∀ j, s.Loaded m j) : ((s.latch.moveTo .expand 16).respond .ok 0).Computes h m where
  hash := hh
  sched i hi := by
    have h16 : i.val < 16 := hi
    exact (hload ⟨i.val, h16⟩).1.trans (congrArg some (getD_schedule_chunk m ⟨i.val, h16⟩).symm)
  work := by
    have hheld : ∀ i : Fin 5, s.heldHash i = some h[i] := fun i => by simp [State.heldHash, hh]
    exact ⟨hheld 0, hheld 1, hheld 2, hheld 3, hheld 4⟩

/-- `START` to an idle, initialised and loaded core begins the chunk (R103). -/
theorem presentAll_start {x : Session} {h : Vector Word 5} {m : Vector Word 16} (hp : x.block.phase = .idle)
    (hi : x.block.inited = true) (hh : x.block.H = h.map some) (hload : ∀ j, x.block.Loaded m j) :
    ∃ y, presentAll (commandWords .start) x = .next y ∧ y.responses = x.responses ++ [⟨.ok, 0⟩] ∧
      y.block.SequencerOk ∧ edgesToReady y.block = 145 ∧ y.block.inputs = x.block.inputs ∧ ChunkProgress h m y.block := by
  let s0 : State := { x.block with rsp := none, draws := x.block.draws + 1 }
  have hm : chunkLoaded s0.mvalid = true := beq_iff_eq.2 (mvalid_full_of_loaded hload)
  have hx : exec .start s0 = .next ((s0.latch.moveTo .expand 16).respond .ok 0) := by
    rw [exec, execStart, if_neg (not_not_intro hp), if_neg (by simp [s0, hi]), if_neg (by simp [hm])]
  refine ⟨_, presentAll_command_of_idle rfl rfl hp hx, rfl, rfl, rfl, rfl, hi, fun _ => ?_, fun hn => nomatch hn⟩
  exact computes_of_start (s := s0) hh hload

/-- Settles O53: `LOADBLK`, `START` and `WAIT` in sequence; the engine keeps the progress of the chunk while the host polls. -/
theorem hashblkCompressesItsChunk : Obligations.HashblkCompressesItsChunk := by
  intro x h m hp hi hh
  obtain ⟨y, hy, hxy, hload⟩ := presentAll_loadblk m hp
  obtain ⟨z, hz, hrz, hok, hedges, hinz, hprog⟩ :=
    presentAll_start hxy.idle (hxy.inited.trans hi) (hxy.hash.trans hh) hload
  obtain ⟨u, polls, hu, hw, hinit, -, hdone⟩ := runWait_waited (engineKeeps_chunkProgress h m) hok hprog
  obtain ⟨hH, hd⟩ := hdone hw.idle
  refine ⟨u, List.replicate 16 ⟨.ok, 0⟩ ++ [⟨.ok, 0⟩] ++ polls, ?_, hH, hw.idle, hinit, hd,
    hw.inputs.trans (hinz.trans hxy.inputs), hw.status, ?_, ?_, fun r hr => ?_⟩
  · rw [AsmLine.run, presentAll_append, hy, sessionThen_next, hz, sessionThen_next, hu]
  · rw [hw.responses, hrz, hxy.responses]
    simp only [List.append_assoc]
  · simp [hw.count, hedges]
  · rcases List.mem_append.1 hr with hr | hr
    · simp only [List.mem_append, List.mem_replicate, List.mem_singleton] at hr
      rcases hr with ⟨-, rfl⟩ | rfl <;> rfl
    · obtain ⟨k, hk⟩ := List.mem_iff_getElem?.1 hr
      exact (hw.answers k r hk).1

end Sys2Proof.Machine
end

section
/-! PROOF. O41, O42: the contract of `ROTL` is the rotation of Lean's bit vectors, which gives its effect bit by bit, and the
corner cases are read off the bits (R90, R94). -/

namespace Sys2Proof.Machine

/-- The contract on unbounded naturals (R11) is Lean's rotation of a bit vector (R90). -/
theorem rotl_eq_rotateLeft (x : Word) (n : BitVec 5) : rotl x n = x.rotateLeft n.toNat := by
  have hmod : n.toNat % 32 = n.toNat := Nat.mod_eq_of_lt n.isLt
  have hlow : x.toNat >>> (32 - n.toNat) % 2 ^ 32 = x.toNat >>> (32 - n.toNat) :=
    Nat.mod_eq_of_lt ((Nat.shiftRight_le _ _).trans_lt x.isLt)
  refine BitVec.eq_of_toNat_eq ?_
  rw [rotl, BitVec.toNat_ofNat, BitVec.toNat_rotateLeft, Nat.or_mod_two_pow, hlow, hmod]

/-- A bit below `n` comes from the top of `x`, and every other bit from `n` places below it (R90). -/
theorem getLsbD_rotl (x : Word) (n : BitVec 5) {i : Nat} (hi : i < 32) :
    (rotl x n).getLsbD i = x.getLsbD ((i + 32 - n.toNat) % 32) := by
  have hn : n.toNat < 32 := n.isLt
  rw [rotl_eq_rotateLeft, BitVec.getLsbD_rotateLeft_of_le hn]
  rcases Nat.lt_or_ge i n.toNat with h | h
  · have hidx : (i + 32 - n.toNat) % 32 = 32 - n.toNat + i := by omega
    simp [h, hidx]
  · have hidx : (i + 32 - n.toNat) % 32 = i - n.toNat := by omega
    simp [Nat.not_lt.2 h, hi, hidx]

/-- Settles O41: the rotation of a bit vector, bit by bit. -/
theorem rotlMovesEveryBit : Obligations.RotlMovesEveryBit :=
  fun x n _ hi => getLsbD_rotl x n hi

/-- Rotation by 0 is the identity (R94 item 1). -/
@[simp] theorem rotl_zero (x : Word) : rotl x 0 = x := by
  refine BitVec.eq_of_getLsbD_eq fun i hi => ?_
  have hidx : (i + 32 - (0 : BitVec 5).toNat) % 32 = i := (Nat.add_mod_right i 32).trans (Nat.mod_eq_of_lt hi)
  rw [getLsbD_rotl x 0 hi, hidx]

/-- Rotations compose by the sum of their amounts modulo 32 (R94 item 5). -/
theorem rotl_rotl (x : Word) (m n : BitVec 5) : rotl (rotl x m) n = rotl x (m + n) := by
  refine BitVec.eq_of_getLsbD_eq fun i hi => ?_
  have hidx : ((i + 32 - n.toNat) % 32 + 32 - m.toNat) % 32 = (i + 32 - (m + n).toNat) % 32 := by
    rw [BitVec.toNat_add]
    omega
  rw [getLsbD_rotl _ n hi, getLsbD_rotl x m (Nat.mod_lt _ (by decide)), getLsbD_rotl x (m + n) hi, hidx]

/-- Rotation distributes over XOR (R94 item 5). -/
theorem rotl_xor (x y : Word) (n : BitVec 5) : rotl (x ^^^ y) n = rotl x n ^^^ rotl y n := by
  refine BitVec.eq_of_getLsbD_eq fun i hi => ?_
  simp only [BitVec.getLsbD_xor, getLsbD_rotl _ n hi]

/-- The amounts of a round trip add up to 0 modulo 32 (R94 item 3). -/
theorem add_complement_eq_zero (n : BitVec 5) : n + BitVec.ofNat 5 (32 - n.toNat) = 0 := by
  bv_omega

/-- Settles O42: the round trip is the composition of two rotations whose amounts add up to 0. -/
theorem rotlRoundTripAndComposition : Obligations.RotlRoundTripAndComposition := by
  refine ⟨rotl_zero, fun x n _ => ?_, rotl_rotl, rotl_xor⟩
  rw [rotl_rotl, add_complement_eq_zero, rotl_zero]

end Sys2Proof.Machine
end

section
/-! PROOF. O24 to O31: the host commands one by one. A performed command is an equation of `exec`; a refused one is judged by the
first cause that applies to it (R196), so its clause is that cause and nothing else. The word a clause begins with is decoded by
the equation of its operation code. -/

namespace Sys2Proof.Machine

/-! The first cause, one lemma for each item of the order of R196: the earlier items do not apply, this one does. -/

section FirstCause
variable {i : Instr} {s : State}

theorem firstCause_of_illegalOp (h : illegalOp i = true) : firstCause i s = .errIllegal := if_pos h

theorem firstCause_of_badIndex (hop : illegalOp i = false) (h : badIndex i = true) : firstCause i s = .errIndex := by
  simp [firstCause, hop, h]

theorem firstCause_of_busy (hop : illegalOp i = false) (hidx : badIndex i = false) (h : needsReady i = true)
    (hp : s.phase ≠ .idle) : firstCause i s = .errBusy := by
  simp [firstCause, hop, hidx, h, hp]

theorem firstCause_of_not_inited (hop : illegalOp i = false) (hidx : badIndex i = false) (hp : s.phase = .idle)
    (h : needsHash i = true) (hi : s.inited = false) : firstCause i s = .errNoinit := by
  simp [firstCause, hop, hidx, hp, h, hi]

theorem firstCause_of_not_loaded (hop : illegalOp i = false) (hidx : badIndex i = false) (hp : s.phase = .idle)
    (hi : s.inited = true) (h : needsChunk i = true) (hm : s.mvalid ≠ 0xFFFF) : firstCause i s = .errIncomplete := by
  rw [firstCause, if_neg (by simp [hop]), if_neg (by simp [hidx]), if_neg (by simp [hp]), if_neg (by simp [hi]), if_pos ⟨h, hm⟩]

/-- A command with a cause to be refused leaves the error record and the response, and nothing else (R193, R196). -/
theorem exec_of_refused {code : RspCode} (hi : i.isCommand = true) (hf : firstCause i s = code) (hc : code ≠ .ok) :
    exec i s = .next { s with
      err := true, ecode := if s.err = true then s.ecode else code.bits, rsp := some ⟨code, 0x00000000⟩ } := by
  subst hf
  obtain ⟨hok, -⟩ | ⟨-, hx⟩ | ⟨hok, -⟩ | ⟨hok, -⟩ | ⟨hok, -⟩ | ⟨hok, -⟩ := exec_command_cases i s hi
  case inr.inl => exact hx.trans (refuse_eq _ s)
  all_goals exact absurd hok hc

end FirstCause

/-! The registers `RDDIG` names are those below 5 (R50, R196 item 2). -/

theorem badIndex_rddig_of_ge {idx : BitVec 4} (h : 5 ≤ idx.toNat) : badIndex (.rddig idx) = true := decide_eq_true h

theorem badIndex_rddig_of_lt {idx : BitVec 4} (h : idx.toNat < 5) : badIndex (.rddig idx) = false :=
  decide_eq_false (Nat.not_le.2 h)

/-! The performed commands, an equation each where the state decides. -/

/-- `INIT` of an idle core (R101). -/
theorem exec_init_of_idle {s : State} (hp : s.phase = .idle) :
    exec .init s = .next ((s.initHash Config.params.iv).respond .ok 0) :=
  if_neg (not_not_intro hp)

/-- `LOADW` to an idle core (R102). -/
theorem exec_loadw_of_idle {s : State} (hp : s.phase = .idle) (idx : BitVec 4) (data : Word) :
    exec (.loadw idx data) s = .next ((s.loadWord idx data).respond .ok 0) :=
  if_neg (not_not_intro hp)

/-- `START` of an idle, initialised and fully loaded core (R103). -/
theorem exec_start_of_loaded {s : State} (hp : s.phase = .idle) (hi : s.inited = true) (hm : s.mvalid = 0xFFFF) :
    exec .start s = .next ((s.latch.moveTo .expand 16).respond .ok 0) := by
  simp [exec, execStart, chunkLoaded, hp, hi, hm]

/-! The status word, bit by bit: every bit is that of the one field laid there (R78). -/

section StatusWord
variable (s : State) {i : Nat}

/-- A flag is bit 0 of its word (R78). -/
theorem getLsbD_flagWord (b : Bool) (i : Nat) : (flagWord b).getLsbD i = (decide (i = 0) && b) := by
  cases b <;> simp [flagWord, BitVec.getLsbD_one]

/-- Bits 3 to 0 are the flags. -/
theorem State.getLsbD_status_flags (hi : i < 4) : s.status.getLsbD i = #v[s.ready, s.dvalid, s.inited, s.err][i] := by
  simp only [State.status, BitVec.getLsbD_or, BitVec.getLsbD_shiftLeft, getLsbD_flagWord]
  interval_cases i <;> simp

/-- Bits 15 to 4 are `ecode` and zeros: no flag reaches them, and `mvalid` begins above them. -/
theorem State.getLsbD_status_ecode (hi : i < 12) : s.status.getLsbD (4 + i) = s.ecode.getLsbD i := by
  have h32 : 4 + i < 32 := by omega
  have hi32 : i < 32 := by omega
  have h16 : 4 + i < 16 := by omega
  have h2 : 4 + i - 2 ≠ 0 := by omega
  have h3 : 4 + i - 3 ≠ 0 := by omega
  simp only [State.status, BitVec.getLsbD_or, BitVec.getLsbD_shiftLeft, getLsbD_flagWord, BitVec.getLsbD_setWidth]
  simp [h32, hi32, h16, h2, h3]

/-- Bits 31 to 16 are `mvalid`: no flag reaches them, and `ecode` ends below them. -/
theorem State.getLsbD_status_mvalid (hi : i < 16) : s.status.getLsbD (16 + i) = s.mvalid.getLsbD i := by
  have h32 : 16 + i < 32 := by omega
  have hi32 : i < 32 := by omega
  have hend : 3 ≤ 16 + i - 4 := by omega
  have h2 : 16 + i - 2 ≠ 0 := by omega
  have h3 : 16 + i - 3 ≠ 0 := by omega
  simp only [State.status, BitVec.getLsbD_or, BitVec.getLsbD_shiftLeft, getLsbD_flagWord, BitVec.getLsbD_setWidth]
  simp [h32, hi32, hend, h2, h3]

end StatusWord

/-- Settles O24: the decoder's equation for `op` 0, and the answer of `NOP`. -/
theorem nopDoesNothing : Obligations.NopDoesNothing :=
  ⟨fun _ => decodeCmd_eq_nop, fun _ => rfl⟩

/-- Settles O25: `INIT` of an idle core, and its one cause of refusal. -/
theorem initLoadsTheInitialHashState : Obligations.InitLoadsTheInitialHashState :=
  ⟨fun _ => decodeCmd_eq_init, fun _ hp => exec_init_of_idle hp,
    fun _ hp => exec_of_refused rfl (firstCause_of_busy rfl rfl rfl hp) nofun⟩

/-- Settles O26: `LOADW` to an idle core, read at each word and each bit, and its one cause of refusal. -/
theorem loadwStoresOneWord : Obligations.LoadwStoresOneWord := by
  refine ⟨fun _ => decodeCmd_eq_loadw, fun s idx data hp => ⟨_, exec_loadw_of_idle hp idx data, ?word, ?bit, rfl⟩,
    fun _ _ _ hp => exec_of_refused rfl (firstCause_of_busy rfl rfl rfl hp) nofun⟩
  case word => exact s.loadWord_getElem idx data
  case bit => exact fun j => (getLsbD_markLoaded s.mvalid idx j.val j.isLt).trans (Bool.or_comm _ _)

/-- Settles O27: `START` that begins a chunk, and its three causes of refusal. -/
theorem startBeginsAChunk : Obligations.StartBeginsAChunk :=
  ⟨fun _ => decodeCmd_eq_start, fun _ hp hi hm => exec_start_of_loaded hp hi hm,
    fun _ hp => exec_of_refused rfl (firstCause_of_busy rfl rfl rfl hp) nofun,
    fun _ hp hi => exec_of_refused rfl (firstCause_of_not_inited rfl rfl hp rfl hi) nofun,
    fun _ hp hi hm => exec_of_refused rfl (firstCause_of_not_loaded rfl rfl hp hi rfl hm) nofun⟩

/-- Settles O28: `RDDIG` of a register that holds a value, and its three causes of refusal. -/
theorem rddigReadsOneHashWord : Obligations.RddigReadsOneHashWord := by
  refine ⟨fun _ => decodeCmd_eq_rddig, fun s idx hidx x hp hi hx => ?read,
    fun _ _ hidx => exec_of_refused rfl (firstCause_of_badIndex rfl (badIndex_rddig_of_ge hidx)) nofun,
    fun _ _ hidx hp => exec_of_refused rfl (firstCause_of_busy rfl (badIndex_rddig_of_lt hidx) rfl hp) nofun,
    fun _ _ hidx hp hi => exec_of_refused rfl (firstCause_of_not_inited rfl (badIndex_rddig_of_lt hidx) hp rfl hi) nofun⟩
  case read =>
    have hread : s.readHash ⟨idx.toNat, hidx⟩ = x := State.readHash_of_held hx
    rw [exec_rddig_of_idle hidx hp hi, hread]
    rfl

/-- Settles O29: `RDSTAT` answers the status word, whose bits are read off field by field. -/
theorem rdstatReturnsTheStatusWord : Obligations.RdstatReturnsTheStatusWord := by
  refine ⟨fun _ => decodeCmd_eq_rdstat, fun s => ⟨s.status, rfl, s.getLsbD_status_flags (i := 0) (by decide),
    s.getLsbD_status_flags (i := 1) (by decide), s.getLsbD_status_flags (i := 2) (by decide),
    s.getLsbD_status_flags (i := 3) (by decide), ?ecode, ?zeros, ?mvalid⟩⟩
  all_goals refine BitVec.eq_of_getLsbD_eq fun j hj => ?_
  all_goals rw [BitVec.getLsbD_extractLsb', decide_eq_true hj, Bool.true_and]
  case ecode => exact s.getLsbD_status_ecode (by omega)
  case zeros =>
    have hidx : 7 + j = 4 + (3 + j) := by omega
    rw [hidx, s.getLsbD_status_ecode (by omega), BitVec.getLsbD_of_ge _ _ (Nat.le_add_right 3 j)]
    exact BitVec.getLsbD_zero.symm
  case mvalid => exact s.getLsbD_status_mvalid hj

/-- Settles O30: the decoder's equation for `op` 6, and the answer of `CLRERR`. -/
theorem clrerrClearsTheErrorRecord : Obligations.ClrerrClearsTheErrorRecord :=
  ⟨fun _ => decodeCmd_eq_clrerr, fun _ => rfl⟩

/-- Settles O31: the decoder's equations for `op` 7 and 8 to 15, and the first item of the order of causes. -/
theorem reservedWordsAreIllegal : Obligations.ReservedWordsAreIllegal :=
  ⟨fun _ => decodeCmd_eq_reserved7, fun _ => decodeCmd_eq_reserved8to15,
    fun _ => exec_of_refused rfl (firstCause_of_illegalOp rfl) nofun,
    fun _ _ => exec_of_refused rfl (firstCause_of_illegalOp rfl) nofun⟩

end Sys2Proof.Machine
end

section
/-! PROOF. O44, O45, O32: the expansion function is the rotation by one of an XOR of four words, so it is linear over XOR, and with it
every word a schedule is extended by; one `EXPAND` whose four source words hold a value writes that word (R120, R121, R122, R124). -/

namespace Sys2Proof.Machine

/-- The expansion function as a rotation of a bit vector (R120, R90). -/
theorem expandFn_eq_rotateLeft (w3 w8 w14 w16 : Word) :
    expandFn w3 w8 w14 w16 = (w3 ^^^ w8 ^^^ w14 ^^^ w16).rotateLeft 1 :=
  rotl_eq_rotateLeft _ 1

/-- A schedule has a word at each of its eighty indices (R120). -/
theorem getElem?_schedule (m : Vector Word 16) {i : Nat} (hi : i < 80) :
    (schedule m)[i]? = some ((schedule m).getD i 0) := by
  have hlen : i < (schedule m).length := hi.trans_eq (length_schedule m).symm
  rw [List.getElem?_eq_getElem hlen, List.getD_eq_getElem _ _ hlen]

/-- Settles O44: the word at each index is the chunk's own, or follows from four words at indices below it. -/
theorem scheduleFollowsTheRecurrence : Obligations.ScheduleFollowsTheRecurrence := by
  refine fun m => ⟨length_schedule m, fun i => ?chunk, fun i h16 h79 => ?derived⟩
  case chunk => rw [getElem?_schedule m (by omega), getD_schedule_chunk]
  case derived =>
    refine ⟨_, _, _, _, getElem?_schedule m (by omega), getElem?_schedule m (by omega), getElem?_schedule m (by omega),
      getElem?_schedule m (by omega), ?_⟩
    rw [getElem?_schedule m (by omega), getD_schedule_derived m h16 h79, expandFn_eq_rotateLeft]

/-- The expansion function is linear over XOR (R124 item 2). -/
theorem expandFn_xor (x3 x8 x14 x16 y3 y8 y14 y16 : Word) :
    expandFn (x3 ^^^ y3) (x8 ^^^ y8) (x14 ^^^ y14) (x16 ^^^ y16) = expandFn x3 x8 x14 x16 ^^^ expandFn y3 y8 y14 y16 := by
  rw [expandFn, expandFn, expandFn, ← rotl_xor]
  ac_rfl

/-- Word `i` of the XOR of two lists of one length; past their end it is the default 0, the XOR of two zeros. -/
theorem getD_zipWith_xor {xs ys : List Word} (hlen : xs.length = ys.length) (i : Nat) :
    (List.zipWith (· ^^^ ·) xs ys).getD i 0 = xs.getD i 0 ^^^ ys.getD i 0 := by
  rcases Nat.lt_or_ge i ys.length with hi | hi
  · simp [hlen, hi]
  · simp [hlen, hi]

/-- The next word of the XOR of two schedules of one length is the XOR of their next words (R120, R124). -/
theorem nextWord_zipWith_xor {xs ys : List Word} (hlen : xs.length = ys.length) :
    nextWord (List.zipWith (· ^^^ ·) xs ys) = nextWord xs ^^^ nextWord ys := by
  simp only [nextWord, List.length_zipWith, hlen, min_self, getD_zipWith_xor hlen, expandFn_xor]

/-- Extending the XOR of two schedules of one length extends each by its own words (R123, R124). -/
theorem extendSchedule_zipWith_xor (n : Nat) {xs ys : List Word} (hlen : xs.length = ys.length) :
    extendSchedule n (List.zipWith (· ^^^ ·) xs ys) =
      List.zipWith (· ^^^ ·) (extendSchedule n xs) (extendSchedule n ys) := by
  induction n generalizing xs ys with
  | zero => rfl
  | succ n ih =>
    rw [extendSchedule, extendSchedule, extendSchedule, ← ih (by simp [hlen]), List.zipWith_append hlen,
      nextWord_zipWith_xor hlen]
    rfl

/-- Settles O45: both chunks have sixteen words, and each of the sixty-four words added keeps the XOR. -/
theorem scheduleIsLinearOverXor : Obligations.ScheduleIsLinearOverXor := by
  intro x y
  rw [schedule, Vector.toList_zipWith, extendSchedule_zipWith_xor 64 (by simp)]
  rfl

/-- A read of a schedule word that holds a value, named by its number, gives it (R14). -/
theorem State.readSched_of_getElem? {s : State} {i : Nat} {v : Word} (h : s.W[i]? = some (some v)) (hi : i < 80) :
    s.readSched ⟨i, hi⟩ = v :=
  State.readSched_of_held (Vector.getElem?_eq_some_iff.1 h).2

/-- Settles O32: `EXPAND` in its range, its four reads giving the words held, and its two next positions. -/
theorem expandWritesOneScheduleWord : Obligations.ExpandWritesOneScheduleWord := by
  intro s w3 w8 w14 w16 h16 h79 hw3 hw8 hw14 hw16
  obtain ⟨v, hv, he⟩ := execExpand_of_range ⟨h16, h79⟩
  rw [State.readSched_of_getElem? hw3, State.readSched_of_getElem? hw8, State.readSched_of_getElem? hw14,
    State.readSched_of_getElem? hw16, expandFn_eq_rotateLeft] at hv
  subst hv
  refine ⟨_, he, fun j => ?word, fun ht => ?last, fun ht => ?next⟩
  case word => rw [State.ite_moveTo, State.moveTo_W, State.writeSched_getElem]
  case last =>
    rw [if_pos (toNat_eq_79_iff.1 ht)]
    rfl
  case next =>
    rw [if_neg (mt toNat_eq_79_iff.2 ht.ne)]
    exact ⟨rfl, toNat_add_one_of_lt ht⟩

end Sys2Proof.Machine
end

section
/-! PROOF. O10: what the engine keeps, a busy edge keeps, whatever command it is presented; so a run to the ready core keeps it.
The progress of the chunk that an accepted `START` begins is such a condition, and so is it that an idle core has no chunk loaded
(R41, R139, R140). -/

namespace Sys2Proof.Machine

/-- What the engine keeps under each of two conditions it keeps under both. -/
theorem EngineKeeps.and {P Q : State → Prop} (hP : EngineKeeps P) (hQ : EngineKeeps Q) : EngineKeeps fun s => P s ∧ Q s :=
  ⟨fun s u hsu ⟨hp, hq⟩ => ⟨hP.1 s u hsu hp, hQ.1 s u hsu hq⟩,
    fun s u hok ⟨hp, hq⟩ he => ⟨hP.2 s u hok hp he, hQ.2 s u hok hq he⟩⟩

/-- A busy edge without `rst` takes a legal position to a legal position and keeps what the engine keeps, whatever the host
presents (R41, R42). -/
theorem EngineKeeps.step_of_busy {P : State → Prop} (hP : EngineKeeps P) {s u : State} (hok : s.SequencerOk) (hs : P s)
    (hb : s.phase ≠ .idle) (hr : s.input.rst = false) (h : step s = .next u) : u.SequencerOk ∧ P u := by
  obtain ⟨hdata, heng⟩ := hP
  rcases step_halves h with ⟨hr', -⟩ | ⟨-, c, hc, he⟩
  · simp [hr] at hr'
  have hcs := hc.sameDatapath hb
  obtain ⟨-, hp, ht⟩ := hc.position.resolve_left fun ha => hb ha.1.2.1
  have hokc : c.SequencerOk := by rwa [State.SequencerOk, hp, ht]
  rw [← hp] at he
  exact ⟨hokc.engine he, heng c u hokc (hdata s c hcs hs) he⟩

/-- A core at a legal position with no edge to go is idle (R33). -/
theorem State.SequencerOk.idle_of_edgesToReady {s : State} (h : s.SequencerOk) (h0 : edgesToReady s = 0) :
    s.phase = .idle := by
  rcases h.cases with ⟨hp, -⟩ | ⟨hp, -⟩ | ⟨hp, -⟩ | ⟨hp, -⟩
  · exact hp
  all_goals simp [edgesToReady, hp, Config.params] at h0

/-- Without `rst` a core at a legal position is ready after just the edges it is from ready, and what the engine keeps is kept to
the end, whatever the host presents (R33, R41, R204). -/
theorem EngineKeeps.run_to_ready {P : State → Prop} (hP : EngineKeeps P) {s : State} {n : Nat} (hn : edgesToReady s = n)
    (hok : s.SequencerOk) (hs : P s) (hr : s.NoResetFor n) :
    ∃ u, core.run n s = .next u ∧ u.phase = .idle ∧ P u := by
  induction n generalizing s with
  | zero => exact ⟨s, by rfl, hok.idle_of_edgesToReady hn, hs⟩
  | succ n ih =>
    have hb : s.phase ≠ .idle := fun hp => by simp [edgesToReady_of_idle hp] at hn
    obtain ⟨v, hv⟩ := hok.step_next
    obtain ⟨hokv, hPv⟩ := hP.step_of_busy hok hs hb hr.input_rst hv
    have hnear := edgesToReady_of_nextPosition hb hok (step_position_of_busy hv hr.input_rst hb)
    obtain ⟨u, hu, hend⟩ := ih (Nat.succ.inj (hnear.trans hn)) hokv hPv (hr.tail (step_inputs hv))
    exact ⟨u, (core_run_succ hv n).trans hu, hend⟩

/-- The core has no chunk loaded when the chunk in flight has ended (R139). -/
def EmptyWhenIdle (s : State) : Prop := s.phase = .idle → s.mvalid = 0

/-- `FOLD`, which alone makes the core idle, clears `mvalid` (R33, R139). -/
theorem engineKeeps_emptyWhenIdle : EngineKeeps EmptyWhenIdle := by
  refine ⟨fun s u hsu hs => ?_, fun s u hok hs he hu => ?_⟩
  · rw [sameDatapath_iff.1 hsu]
    exact hs
  · have hpos : u.phase = (nextPosition s.phase s.t).1 := congrArg Prod.fst (engine_position he)
    have hstay : ¬(s.phase = .expand ∨ s.phase = .round) := fun hp => nextPosition_ne_idle hp (hpos.symm.trans hu)
    rw [engine_mvalid he]
    rcases hok.cases with ⟨hp, -⟩ | ⟨hp, -⟩ | ⟨hp, -⟩ | ⟨hp, -⟩
    · rw [if_neg (by simp [hp]), hs hp]
    · exact absurd (.inl hp) hstay
    · exact absurd (.inr hp) hstay
    · exact if_pos hp

/-- The edge that accepts a `START` latches the hash state and begins the schedule at word 16 (R103). -/
theorem step_of_acceptsStart {s : State} (h : s.AcceptsStart) :
    step s = .next ((s.beginEdge.latch.moveTo .expand 16).respond .ok 0) := by
  obtain ⟨⟨hr, w, hw, hd⟩, hp, hi, hm⟩ := h
  have hc : takeCommand s.input.cmd s.beginEdge = .next ((s.beginEdge.latch.moveTo .expand 16).respond .ok 0) := by
    rw [hw, takeCommand, hd]
    exact exec_start_of_loaded hp hi hm
  rw [step_of_takeCommand hr hc, hp, engine_idle]

/-- Settles O10: `START` puts the core 145 edges from ready with its chunk in flight, and the run to the ready core keeps the
progress of the chunk. -/
theorem chunkIsCompressed : Obligations.ChunkIsCompressed := by
  intro s h m hs hr hh hW
  have hstep := step_of_acceptsStart hs
  obtain ⟨-, -, hi, hm⟩ := hs
  have hload : ∀ i : Fin 16, s.beginEdge.Loaded m i := fun i => ⟨hW i, getLsbD_full hm i.isLt⟩
  have hprog : ChunkProgress h m ((s.beginEdge.latch.moveTo .expand 16).respond .ok 0) :=
    ⟨hi, fun _ => computes_of_start hh hload, nofun⟩
  obtain ⟨u, hu, hp, ⟨-, -, hdone⟩, hempty⟩ :=
    ((engineKeeps_chunkProgress h m).and engineKeeps_emptyWhenIdle).run_to_ready (n := 145) rfl rfl ⟨hprog, nofun⟩
      (hr.tail (step_inputs hstep))
  obtain ⟨hH, hd⟩ := hdone hp
  exact ⟨u, (core_run_succ hstep 145).trans hu, hH, hp, hd, hempty hp⟩

end Sys2Proof.Machine
end

section
/-! PROOF. O43, O33, O34: the mixing function and the constant by the quartile of the round, and the mixing function at one bit;
one `ROUND` and one `FOLD` whose operands all hold a value (R131 to R134, R139). -/

namespace Sys2Proof.Machine

/-- The quartile of a round (R131, R132). -/
theorem quartile_eq {t : Nat} (h79 : t ≤ 79) :
    t / 20 = if t < 20 then 0 else if t < 40 then 1 else if t < 60 then 2 else 3 := by
  split_ifs <;> omega

/-- The mixing function of a round is that of its quartile (R131). -/
theorem mixFn_eq {t : Nat} (h79 : t ≤ 79) (b c d : Word) : mixFn t b c d =
    if t < 20 then choose b c d else if t < 40 then parity b c d else if t < 60 then majority b c d else parity b c d := by
  rw [mixFn, quartile_eq h79]
  split_ifs <;> rfl

/-- The constant of a round is that of its quartile (R132, R8). -/
theorem roundConstant_eq {t : Nat} (h79 : t ≤ 79) : roundConstant t =
    if t < 20 then 0x5A827999 else if t < 40 then 0x6ED9EBA1 else if t < 60 then 0x8F1BBCDC else 0xCA62C1D6 := by
  rw [roundConstant, quartile_eq h79]
  split_ifs <;> rfl

section
variable (b c d : Word) {i : Nat}

/-- `choose` at one bit: if `b` then `c` else `d` (R131). -/
theorem getLsbD_choose (hi : i < 32) :
    (choose b c d).getLsbD i = if b.getLsbD i = true then c.getLsbD i else d.getLsbD i := by
  rw [choose, BitVec.getLsbD_or, BitVec.getLsbD_and, BitVec.getLsbD_and, BitVec.getLsbD_not, decide_eq_true hi]
  cases b.getLsbD i <;> simp

/-- `parity` at one bit: an odd number of the three is one (R131). -/
theorem getLsbD_parity : (parity b c d).getLsbD i = true ↔
    ((b.getLsbD i).toNat + (c.getLsbD i).toNat + (d.getLsbD i).toNat) % 2 = 1 := by
  rw [parity, BitVec.getLsbD_xor, BitVec.getLsbD_xor]
  generalize b.getLsbD i = x, c.getLsbD i = y, d.getLsbD i = z
  decide +revert

/-- `majority` at one bit: at least two of the three are one (R131). -/
theorem getLsbD_majority : (majority b c d).getLsbD i = true ↔
    2 ≤ (b.getLsbD i).toNat + (c.getLsbD i).toNat + (d.getLsbD i).toNat := by
  rw [majority, BitVec.getLsbD_or, BitVec.getLsbD_or, BitVec.getLsbD_and, BitVec.getLsbD_and, BitVec.getLsbD_and]
  generalize b.getLsbD i = x, c.getLsbD i = y, d.getLsbD i = z
  decide +revert

end

/-- Settles O43: the quartile of the round selects the function, whose bit is that of the three bits. -/
theorem mixingFunctionPerBitPosition : Obligations.MixingFunctionPerBitPosition := by
  refine fun t b c d i h79 hi => ⟨fun ht => ?choose, fun ht => ?parity, fun ⟨h40, h59⟩ => ?majority⟩
  case choose =>
    rw [mixFn_eq h79, if_pos (Nat.lt_succ_of_le ht)]
    exact getLsbD_choose b c d hi
  case parity =>
    have hmix : mixFn t b c d = parity b c d := by
      rcases ht with ⟨h20, h39⟩ | h60
      · rw [mixFn_eq h79, if_neg (by omega), if_pos (by omega)]
      · rw [mixFn_eq h79, if_neg (by omega), if_neg (by omega), if_neg (by omega)]
    rw [hmix]
    exact getLsbD_parity b c d
  case majority =>
    rw [mixFn_eq h79, if_neg (by omega), if_neg (by omega), if_pos (by omega)]
    exact getLsbD_majority b c d

/-- Settles O33: `ROUND` in its range is the round function of the values held, whose parts are those of the quartile, and its two
next positions. -/
theorem roundMixesTheWorkingRegisters : Obligations.RoundMixesTheWorkingRegisters := by
  intro s a b c d e w h79 ha hb hc hd he hw
  have hx := exec_round_of_lt (Nat.lt_succ_of_le h79)
  rw [State.work_of_held (r := ⟨a, b, c, d, e⟩) ha hb hc hd he, State.readSched_of_getElem? hw] at hx
  refine ⟨_, roundFn s.t.toNat ⟨a, b, c, d, e⟩ w, hx, ?value, rfl, rotl_eq_rotateLeft b 30, rfl, rfl, fun ht => ?last,
    fun ht => ?next⟩
  case value =>
    rw [roundFn, mixFn_eq h79, roundConstant_eq h79, rotl_eq_rotateLeft]
    rfl
  case last =>
    rw [if_pos (toNat_eq_79_iff.1 ht), if_pos (toNat_eq_79_iff.1 ht)]
    rfl
  case next =>
    rw [if_neg (mt toNat_eq_79_iff.2 ht.ne), if_neg (mt toNat_eq_79_iff.2 ht.ne)]
    exact ⟨rfl, toNat_add_one_of_lt ht⟩

/-- Settles O34: `FOLD` stores the sums of the values held. -/
theorem foldAddsIntoTheHashState : Obligations.FoldAddsIntoTheHashState := by
  intro s h a b c d e hh ha hb hc hd he
  rw [exec_fold, State.hash_of_held hh, State.work_of_held (r := ⟨a, b, c, d, e⟩) ha hb hc hd he]
  rfl

end Sys2Proof.Machine
end

section
/-! PROOF. O17: the hash state register file holds but at an accepted `INIT`, a `FOLD` and a reset (R150, R153). In the command's
half of an edge `INIT` is the only writer, in the engine's half `FOLD`. -/

namespace Sys2Proof.Machine

/-- `INIT` writes the hash state, and no other command (R21, R151). -/
theorem CommandLeaves.H_eq {s c : State} (h : CommandLeaves s c) (hi : ¬s.AcceptsInit) : c.H = s.H := by
  cases h with
  | answered | refused | cleared | loadw | start => rfl
  | init ha => exact absurd ha hi

/-- `FOLD` writes the hash state, and no other micro-operation (R21, R152). -/
theorem engine_H_eq {p : Phase} {s u : State} (h : engine p s = .next u) (hp : p ≠ .fold) : u.H = s.H := by
  rcases engine_cases h with ⟨rfl, rfl⟩ | ⟨rfl, -, v, rfl⟩ | ⟨rfl, -, v, rfl⟩ | ⟨rfl, rfl⟩
  · rfl
  · rw [State.ite_moveTo, State.moveTo_H, State.writeSched_H]
  · rw [State.ite_moveTo, State.moveTo_H, State.writeWork_H]
  · exact absurd rfl hp

/-- Settles O17: a reset leaves the registers of the reset state; at any other edge each half of the edge keeps `H` where its one
writer does not fire. -/
theorem hashStateHolds : Obligations.HashStateHolds := by
  intro s s' h
  rcases step_halves h with ⟨hr, rfl⟩ | ⟨hr, c, hc, he⟩
  · obtain ⟨-, -, -, -, -, -, -, hH, -⟩ := s.beginEdge.toReset_atReset
    exact ⟨fun hr' => by simp [hr] at hr', fun _ => hH⟩
  · exact ⟨fun _ hi hp => (engine_H_eq he hp).trans (hc.H_eq hi), fun hr' => by simp [hr] at hr'⟩

end Sys2Proof.Machine
end

section
/-! PROOF. O46, O47, O48: the unit `digest_assembler`. The port `digest` is the number whose five digits in base 2^32 are the
hash registers, so each `RDDIG` reads one digit of it; it moves only where a register of an initialised core moves (R160 to
R162). -/

namespace Sys2Proof.Machine

/-- Concatenation is a shift by the lower width and a sum. -/
theorem toNat_append_eq_mul_add {m n : Nat} (x : BitVec m) (y : BitVec n) : (x ++ y).toNat = x.toNat * 2 ^ n + y.toNat := by
  rw [BitVec.toNat_append, ← Nat.shiftLeft_add_eq_or_of_lt y.isLt, Nat.shiftLeft_eq]

/-- The assembled digest as a number: the five words are its digits in base 2^32 (R160). -/
theorem toNat_assembleDigest (h : Vector Word 5) : (assembleDigest h).toNat =
    h[0].toNat * 2 ^ 128 + h[1].toNat * 2 ^ 96 + h[2].toNat * 2 ^ 64 + h[3].toNat * 2 ^ 32 + h[4].toNat := by
  simp only [assembleDigest, toNat_append_eq_mul_add]
  omega

/-- Word `i` of the assembled digest stands at bit `32 * (4 - i)` (R160). -/
theorem extractLsb'_assembleDigest (h : Vector Word 5) (i : Fin 5) :
    (assembleDigest h).extractLsb' (32 * (4 - i.val)) 32 = h[i] := by
  apply BitVec.eq_of_toNat_eq
  rw [BitVec.extractLsb'_toNat, toNat_assembleDigest, Nat.shiftRight_eq_div_pow]
  fin_cases i <;> dsimp only [Fin.getElem_fin] <;> omega

/-- The five registers read together are the five read one by one (R154). -/
theorem State.getElem_hash (s : State) (i : Fin 5) : s.hash[i] = s.readHash i := by
  fin_cases i <;> rfl

/-- While an initialised core keeps its hash registers, the port keeps its value (R160). -/
theorem State.Inv.digestPort_congr {s u : State} (h : s.Inv) (hi : s.inited = true) (hH : u.H = s.H) :
    u.digestPort = s.digestPort :=
  congrArg assembleDigest (State.hash_congr (h.hash_held hi) hH)

/-- Settles O46: the port assembles the values the registers hold. -/
theorem digestPortIsTheConcatenation : Obligations.DigestPortIsTheConcatenation := by
  intro s h hh
  rw [State.digestPort, State.hash_of_held hh, toNat_assembleDigest]

/-- Settles O47: `RDDIG idx` answers the read of register `idx`, which is word `idx` of the port. -/
theorem rddigReadsBackThePort : Obligations.RddigReadsBackThePort := by
  intro s idx _ hp hi hidx
  have hword : s.digestPort.extractLsb' (32 * (4 - idx.toNat)) 32 = s.readHash ⟨idx.toNat, hidx⟩ :=
    (extractLsb'_assembleDigest s.hash ⟨idx.toNat, hidx⟩).trans (s.getElem_hash _)
  rw [hword]
  exact exec_rddig_of_idle hidx hp hi

/-- Settles O48: a core whose digest is valid is idle and initialised, so no `FOLD` is due and the hash state holds. -/
theorem digestIsStableWhileValid : Obligations.DigestIsStableWhileValid := by
  intro s s' h hd hs hr hinit hstart
  have ⟨_, _, ⟨hvalid, _⟩, _⟩ := h
  obtain ⟨hi, hp⟩ := hvalid hd
  obtain ⟨hhash, -⟩ := hashStateHolds s s' hs
  obtain ⟨hdvalid, -⟩ := flagsChangeOnlyAsStated s s' hs
  have hH : s'.H = s.H := hhash hr hinit (by simp [hp])
  exact ⟨h.digestPort_congr hi hH, hdvalid.2 ⟨hr, .inr ⟨hd, hinit, hstart⟩⟩⟩

end Sys2Proof.Machine
end

section
/-! PROOF. O52: the Padder/Chunker rejects exactly the messages of 2^64 bits or more, and all that is built on it with it (R176). -/

namespace Sys2Proof.Machine

theorem padMessage_of_long {m : List Byte} (h : 2 ^ 64 ≤ 8 * m.length) : padMessage m = .error .lengthOverflow := if_pos h

theorem padMessage_of_short {m : List Byte} (h : 8 * m.length < 2 ^ 64) : padMessage m = .ok (chunksOf m) :=
  if_neg (Nat.not_le.2 h)

theorem driverLines_of_long {m : List Byte} (h : 2 ^ 64 ≤ 8 * m.length) : driverLines m = .error .lengthOverflow := by
  rw [driverLines, padMessage_of_long h]

theorem driverLines_of_short {m : List Byte} (h : 8 * m.length < 2 ^ 64) :
    driverLines m = .ok ([.command .init] ++ (chunksOf m).map .hashblk ++ [.rddigest]) := by
  rw [driverLines, padMessage_of_short h]

theorem digestOfMessage_of_short {m : List Byte} (h : 8 * m.length < 2 ^ 64) :
    digestOfMessage m = .ok (assembleDigest (hashChunks (chunksOf m))) := by
  rw [digestOfMessage, padMessage_of_short h]

/-- Settles O52: the padder decides, and the rest goes by its answer. -/
theorem overlongMessagesAreRejected : Obligations.OverlongMessagesAreRejected := by
  refine fun m => ⟨fun h => ⟨padMessage_of_long h, driverLines_of_long h, ?_, fun s => ?_⟩, padMessage_of_short⟩
  · rw [digestOfMessage, padMessage_of_long h]
  · rw [computeDigest, driverLines_of_long h]

end Sys2Proof.Machine
end

section
/-! PROOF. O49, O50, O51: the padded stream ends in the bit length, big-endian, and a chunk word is four bytes of the stream (R171
to R174). -/

namespace Sys2Proof.Machine

/-- The number a list of bytes stands for, the first most significant (R52). -/
def bytesValue (bs : List Byte) : Nat := bs.foldl (fun acc b => acc * 256 + b.toNat) 0

@[simp] theorem length_bigEndian (n v : Nat) : (bigEndian n v).length = n := by
  induction n with
  | zero => rfl
  | succ n ih => rw [bigEndian, List.length_cons, ih]

/-- The bytes of a number go on from any value read so far. -/
theorem foldl_bigEndian (n v acc : Nat) :
    (bigEndian n v).foldl (fun acc b => acc * 256 + b.toNat) acc = acc * 256 ^ n + v % 256 ^ n := by
  induction n generalizing acc with
  | zero => simp [bigEndian, Nat.mod_one]
  | succ n ih =>
    have hsplit : v % 256 ^ (n + 1) = v % 256 ^ n + 256 ^ n * (v / 256 ^ n % 256) := by rw [pow_succ, Nat.mod_mul]
    rw [bigEndian, List.foldl_cons, ih, BitVec.toNat_ofNat, hsplit]
    ring

/-- The `n` bytes of a number stand for it modulo `256 ^ n` (R52). -/
theorem bytesValue_bigEndian (n v : Nat) : bytesValue (bigEndian n v) = v % 256 ^ n := by
  rw [bytesValue, foldl_bigEndian, Nat.zero_mul, Nat.zero_add]

/-- The upper `k` bytes of a number are those of its quotient. -/
theorem bigEndian_add (k n v : Nat) : bigEndian (k + n) v = bigEndian k (v / 256 ^ n) ++ bigEndian n v := by
  induction k with
  | zero => rw [Nat.zero_add]; rfl
  | succ k ih =>
    have hdiv : v / 256 ^ (k + n) = v / 256 ^ n / 256 ^ k := by rw [Nat.div_div_eq_div_mul, ← pow_add, Nat.add_comm]
    rw [Nat.succ_add, bigEndian, ih, hdiv]
    rfl

/-- `MemRead` of a part of a stream is the number that part stands for (R13). -/
theorem memRead_append (p q r : List Byte) : memRead (p ++ (q ++ r)) p.length q.length = bytesValue q := by
  rw [memRead, List.drop_left, List.take_left, bytesValue]

/-- `MemRead` of four bytes is their concatenation, the first most significant (R13, R52). -/
theorem memRead_four {p : List Byte} {a : Nat} (h : a + 3 < p.length) :
    memRead p a 4 = (p[a] ++ p[a + 1] ++ p[a + 2] ++ p[a + 3]).toNat := by
  have hdrop : p.drop a = p[a] :: p[a + 1] :: p[a + 2] :: p[a + 3] :: p.drop (a + 4) := by
    rw [List.drop_eq_getElem_cons (by omega), List.drop_eq_getElem_cons (i := a + 1) (by omega),
      List.drop_eq_getElem_cons (i := a + 2) (by omega), List.drop_eq_getElem_cons (i := a + 3) h]
  rw [memRead, hdrop]
  simp only [List.take_succ_cons, List.take_zero, List.foldl_cons, List.foldl_nil, toNat_append_eq_mul_add]
  omega

/-- `z` is the number below 64 that leaves room for the eight length bytes in the last chunk (R171). -/
theorem zeroBytes_fills (len : Nat) : zeroBytes len < 64 ∧ (zeroBytes len + len) % 64 = 55 := by
  rw [zeroBytes]
  omega

/-- The `0` bits are the last seven of the byte 0x80 and those of the `z` bytes (R171). -/
theorem zeroBits_eq (len : Nat) : zeroBits len = 7 + 8 * zeroBytes len := by
  rw [zeroBits, zeroBytes]
  omega

/-- The padded stream fills its chunks (R171, R172). -/
theorem length_paddedStream (m : List Byte) : (paddedStream m).length = 64 * numChunks m.length := by
  have hz := zeroBytes_fills m.length
  simp only [paddedStream, List.length_append, List.length_singleton, List.length_replicate, length_bigEndian, numChunks]
  omega

@[simp] theorem length_chunksOf (m : List Byte) : (chunksOf m).length = numChunks m.length := by
  rw [chunksOf, List.length_map, List.length_range]

theorem getElem?_chunksOf {m : List Byte} {j : Nat} (hj : j < numChunks m.length) :
    (chunksOf m)[j]? = some (chunkOf (paddedStream m) j) := by
  simp [chunksOf, hj]

/-- Word `i` of chunk `j` (R174). -/
theorem getElem_chunkOf (p : List Byte) (j : Nat) (i : Fin 16) : (chunkOf p j)[i] = chunkWord p j i.val := by
  fin_cases i <;> rfl

/-- A chunk word is four bytes of the stream, the first most significant (R174, R51). -/
theorem chunkWord_eq_append {p : List Byte} {j i : Nat} (h : 64 * j + 4 * i + 3 < p.length) :
    chunkWord p j i =
      p[64 * j + 4 * i] ++ p[64 * j + 4 * i + 1] ++ p[64 * j + 4 * i + 2] ++ p[64 * j + 4 * i + 3] := by
  rw [chunkWord, memRead_four h, BitVec.ofNat_toNat, BitVec.setWidth_eq]

/-- The bit length of a message of fewer than 2^64 bits is the number its last eight bytes stand for (R171). -/
theorem bytesValue_bitLength {m : List Byte} (h : 8 * m.length < 2 ^ 64) :
    bytesValue (bigEndian 8 (bitLength m)) = 8 * m.length := by
  rw [bytesValue_bigEndian, bitLength]
  omega

/-- Settles O49: the layout is the definition; that `k` fills the last block, and is the least that does, follows from `z < 64`
with `z + L` congruent to 55 modulo 64. -/
theorem paddedStreamIsAsStated : Obligations.PaddedStreamIsAsStated := by
  intro m h
  have hz := zeroBytes_fills m.length
  have hk := zeroBits_eq m.length
  refine ⟨bigEndian 8 (bitLength m), ?_, length_bigEndian _ _, bytesValue_bitLength h, hz, hk, ?_, fun k hfill => ?_,
    length_paddedStream m⟩
  · simp [paddedStream]
  · omega
  · omega

/-- Settles O50: the number of chunks is `N`. -/
theorem chunkCountIsAsStated : Obligations.ChunkCountIsAsStated := by
  intro m
  rw [length_chunksOf, numChunks]
  omega

/-- The two halves of the bit length are the last two words of the last chunk (R174). -/
theorem chunkWord_lengthHalves (m : List Byte) :
    (chunkWord (paddedStream m) (numChunks m.length - 1) 14).toNat = bitLength m / 2 ^ 32 % 2 ^ 32 ∧
    (chunkWord (paddedStream m) (numChunks m.length - 1) 15).toNat = bitLength m % 2 ^ 32 := by
  let front := m ++ [0x80] ++ List.replicate (zeroBytes m.length) 0
  let hi := bigEndian 4 (bitLength m / 256 ^ 4)
  let lo := bigEndian 4 (bitLength m)
  have hstream : paddedStream m = front ++ (hi ++ lo) := congrArg (front ++ ·) (bigEndian_add 4 4 (bitLength m))
  have hfront : front.length = 64 * (numChunks m.length - 1) + 4 * 14 := by
    have hlen := length_paddedStream m
    simp only [hstream, List.length_append, hi, lo, length_bigEndian, numChunks] at hlen ⊢
    omega
  constructor
  · have hread := memRead_append front hi lo
    rw [hfront, ← hstream, length_bigEndian, bytesValue_bigEndian] at hread
    rw [chunkWord, hread, BitVec.toNat_ofNat]
    omega
  · have hread := memRead_append (front ++ hi) lo []
    rw [List.append_nil, List.append_assoc, ← hstream, List.length_append, hfront, length_bigEndian, length_bigEndian,
      bytesValue_bigEndian] at hread
    rw [chunkWord, show 4 * 15 = 4 * 14 + 4 from rfl, ← Nat.add_assoc, hread, BitVec.toNat_ofNat]
    omega

/-- Settles O51: a word is four bytes of the stream, and the stream ends in the bit length. -/
theorem chunksAreTheSlicedStream : Obligations.ChunksAreTheSlicedStream := by
  intro m h
  refine ⟨fun j i hj => ?_, chunkOf (paddedStream m) (numChunks m.length - 1), getElem?_chunksOf ?_, ?_, ?_⟩
  · have hlen : 64 * j + 4 * i.val + 3 < (paddedStream m).length := by
      rw [length_paddedStream]
      omega
    exact ⟨chunkOf (paddedStream m) j, _, _, _, _, getElem?_chunksOf hj, List.getElem?_eq_getElem (by omega),
      List.getElem?_eq_getElem (by omega), List.getElem?_eq_getElem (by omega), List.getElem?_eq_getElem hlen,
      (getElem_chunkOf _ j i).trans (chunkWord_eq_append hlen)⟩
  · exact Nat.sub_lt (Nat.succ_pos _) Nat.one_pos
  · exact (chunkWord_lengthHalves m).1.trans (Nat.mod_eq_of_lt (Nat.div_lt_of_lt_mul h))
  · exact (chunkWord_lengthHalves m).2

end Sys2Proof.Machine
end

section
/-! PROOF. O54: `INIT` begins the chain of R141, each `HASHBLK` takes it one chunk further, and `RDDIGEST` reads its end (R180). -/

namespace Sys2Proof.Machine

/-- What the host gets of a run of the driver that does not stop: its last session, and the digest it may use (R180, R184). -/
theorem computeDigest_of_run {m : List Byte} {s : State} {y : Session} (hm : 8 * m.length < 2 ^ 64)
    (hy : runLines ([.command .init] ++ (chunksOf m).map .hashblk ++ [.rddigest]) ⟨s, []⟩ = .next y) :
    computeDigest m s = .ok (.next ⟨y, usableDigest y.responses⟩) := by
  simp only [computeDigest, driverLines_of_short hm, hy]

/-- A session with an idle core that holds the hash state `h`, in which every command was performed (R180). -/
structure Session.Holds (x : Session) (h : Vector Word 5) : Prop where
  idle : x.block.phase = .idle
  inited : x.block.inited = true
  hash : x.block.H = h.map some
  performed : ∀ r ∈ x.responses, r.code = .ok

/-- `INIT` of an idle core, whatever it holds, begins the chain (R101, R141). -/
theorem run_init_holds {x : Session} (hp : x.block.phase = .idle) (hx : ∀ r ∈ x.responses, r.code = .ok) :
    ∃ y, (AsmLine.command .init).run x = .next y ∧ y.Holds Config.params.iv := by
  let s0 : State := { x.block with rsp := none, draws := x.block.draws + 1 }
  refine ⟨_, presentAll_command_of_idle rfl rfl hp (exec_init_of_idle (s := s0) hp), hp, rfl, heldFive_eq _, ?_⟩
  exact List.forall_mem_append.2 ⟨hx, by simp⟩

/-- `HASHBLK` compresses its chunk into the chain and leaves a valid digest (R140, R141). -/
theorem Session.Holds.run_hashblk {x : Session} {h : Vector Word 5} (hx : x.Holds h) (m : Vector Word 16) :
    ∃ y, (AsmLine.hashblk m).run x = .next y ∧ y.Holds (compress h m) ∧ y.block.dvalid = true := by
  obtain ⟨y, rs, hy, hH, hp, hi, hd, -, -, hr, -, hok⟩ := hashblkCompressesItsChunk x h m hx.idle hx.inited hx.hash
  exact ⟨y, hy, ⟨hp, hi, hH, hr ▸ List.forall_mem_append.2 ⟨hx.performed, hok⟩⟩, hd⟩

/-- `HASHBLK` of a list of chunks compresses them in order; after the last, if there is one, the digest is valid (R141). -/
theorem Session.Holds.run_hashblks {x : Session} {h : Vector Word 5} (hx : x.Holds h) (ms : List (Vector Word 16)) :
    ∃ y, runLines (ms.map .hashblk) x = .next y ∧ y.Holds (ms.foldl compress h) ∧
      (x.block.dvalid = true ∨ ms ≠ [] → y.block.dvalid = true) := by
  induction ms generalizing x h with
  | nil => exact ⟨x, rfl, hx, fun hd => hd.resolve_right fun hn => hn rfl⟩
  | cons m ms ih =>
    obtain ⟨y, hy, hyh, hd⟩ := hx.run_hashblk m
    obtain ⟨z, hz, hzh, hzd⟩ := ih hyh
    refine ⟨z, ?_, hzh, fun _ => hzd (.inl hd)⟩
    rw [List.map_cons, runLines, hy, sessionThen_next, hz]

/-- Two actions of the host that go on are one and then the other. -/
theorem sessionThen_eq_next {o : SessionOutcome} {f : Session → SessionOutcome} {y : Session}
    (h : sessionThen o f = .next y) : ∃ x, o = .next x ∧ f x = .next y := by
  cases o with
  | next x => exact ⟨x, rfl, h⟩
  | fault r => cases h
  | refused r => cases h

/-- A word that is neither `INIT` nor `START` keeps a valid digest valid (R29, R161). -/
theorem present_keeps_dvalid {w : CmdWord} {x y : Session} (hy : present w x = .next y)
    (hw : decodeCmd w ≠ .init ∧ decodeCmd w ≠ .start) (hd : x.block.dvalid = true) : y.block.dvalid = true := by
  obtain ⟨hstep, -⟩ := present_next hy
  obtain ⟨hdvalid, -⟩ := flagsChangeOnlyAsStated _ _ hstep
  have hp : ({ x.block with inputs := ⟨false, some w⟩ :: x.block.inputs } : State).Presents (decodeCmd w) :=
    ⟨rfl, w, rfl, rfl⟩
  exact hdvalid.2 ⟨rfl, .inr ⟨hd, fun ha => hw.1 (hp.iff_eq.1 ha.1), fun ha => hw.2 (hp.iff_eq.1 ha.1)⟩⟩

/-- So does a list of such words. -/
theorem presentAll_keeps_dvalid {ws : List CmdWord} {x y : Session} (hy : presentAll ws x = .next y)
    (hws : ∀ w ∈ ws, decodeCmd w ≠ .init ∧ decodeCmd w ≠ .start) (hd : x.block.dvalid = true) : y.block.dvalid = true := by
  induction ws generalizing x with
  | nil => cases hy; exact hd
  | cons w ws ih =>
    obtain ⟨z, hz, hzy⟩ := sessionThen_eq_next hy
    obtain ⟨hw, hws⟩ := List.forall_mem_cons.1 hws
    exact ih hzy hws (present_keeps_dvalid hz hw hd)

/-- The words of `RDDIGEST` are `RDDIG` (R84). -/
theorem decodeCmd_of_mem_rddigestWords {w : CmdWord} (hw : w ∈ rddigestWords) : ∃ idx, decodeCmd w = .rddig idx := by
  obtain ⟨i, -, hi⟩ := List.mem_flatMap.1 hw
  obtain ⟨v, hv, hd⟩ := commandWords_of_command (i := .rddig (BitVec.ofNat 4 i)) rfl rfl
  rw [hv, List.mem_singleton] at hi
  exact ⟨_, hi ▸ hd⟩

/-- `RDDIGEST` reads the digest of the chain and keeps it on the port (R84, R160, R161). -/
theorem Session.Holds.run_rddigest {x : Session} {h : Vector Word 5} (hx : x.Holds h) (hd : x.block.dvalid = true) :
    ∃ y, AsmLine.rddigest.run x = .next y ∧ y.Holds h ∧ rddigestValue y.responses = some (assembleDigest h) ∧
      y.block.dvalid = true := by
  obtain ⟨y, hy, hxy⟩ := presentAll_rddigs (List.finRange 5) hx.idle hx.inited hx.hash
  refine ⟨y, hy, ⟨hxy.idle, hxy.inited.trans hx.inited, hxy.hash.trans hx.hash, ?_⟩, ?_, ?_⟩
  · rw [hxy.responses]
    exact List.forall_mem_append.2 ⟨hx.performed, by simp⟩
  · rw [hxy.responses]
    exact rddigestValue_append x.responses h[0] h[1] h[2] h[3] h[4]
  · refine presentAll_keeps_dvalid (ws := rddigestWords) hy (fun w hw => ?_) hd
    obtain ⟨idx, hdec⟩ := decodeCmd_of_mem_rddigestWords hw
    simp [hdec]

/-- Settles O54: the three parts of the driver in sequence. -/
theorem driverComputesTheDigest : Obligations.DriverComputesTheDigest := by
  intro s m hp hm
  have hne : chunksOf m ≠ [] := List.ne_nil_of_length_pos (by rw [length_chunksOf]; exact Nat.succ_pos _)
  obtain ⟨x, hx, hxh⟩ := run_init_holds (x := ⟨s, []⟩) hp (by simp)
  obtain ⟨y, hy, hyh, hyd⟩ := hxh.run_hashblks (chunksOf m)
  obtain ⟨z, hz, hzh, hval, hzd⟩ := hyh.run_rddigest (hyd (.inr hne))
  refine ⟨⟨z, usableDigest z.responses⟩, _, computeDigest_of_run hm ?_, digestOfMessage_of_short hm, ?_, ?_, hzd,
    hzh.performed⟩
  · rw [runLines_append, runLines_append, runLines_singleton, hx, sessionThen_next, hy, sessionThen_next,
      runLines_singleton, hz]
  · exact (usableDigest_of_ok hzh.performed).trans hval
  · exact congrArg assembleDigest (State.hash_of_held hzh.hash)

end Sys2Proof.Machine
end

section
/-! PROOF. O56: from a legal position no line of a host's program stops the block, and the host keeps every response it has had; so
a run whose first response is a refusal ends, and returns no digest (R184, R204). -/

namespace Sys2Proof.Machine

/-- Every step takes a legal position to a legal position (R33, R42). -/
theorem State.SequencerOk.step {s u : State} (h : s.SequencerOk) (hs : step s = .next u) : u.SequencerOk := by
  rcases step_halves hs with ⟨-, rfl⟩ | ⟨-, c, hc, he⟩
  · rfl
  · rcases hc.position with ⟨ha, hp, ht⟩ | ⟨-, hp, ht⟩
    · rw [ha.2.1, engine_idle] at he
      cases he
      rw [State.SequencerOk, hp, ht]
      rfl
    · rw [← hp] at he
      exact State.SequencerOk.engine (s := c) (by rwa [State.SequencerOk, hp, ht]) he

/-- A legal position is a condition on the datapath, and the engine keeps it (R42). -/
theorem engineKeeps_sequencerOk : EngineKeeps State.SequencerOk := by
  refine ⟨fun s u hd h => ?_, fun s u hok _ he => hok.engine he⟩
  obtain ⟨-, -, -, -, -, -, -, -, hp, ht, -⟩ := hd
  rwa [State.SequencerOk, ← hp, ← ht]

/-- An action of the host goes on from session `x` to a session at a legal position that keeps the responses of `x` (R180). -/
def GoesOn (o : SessionOutcome) (x : Session) : Prop :=
  ∃ y, o = .next y ∧ y.block.SequencerOk ∧ x.responses <+: y.responses

/-- One action that goes on after another goes on. -/
theorem GoesOn.sessionThen {o : SessionOutcome} {f : Session → SessionOutcome} {x : Session} (h : GoesOn o x)
    (hf : ∀ y : Session, y.block.SequencerOk → GoesOn (f y) y) : GoesOn (sessionThen o f) x := by
  obtain ⟨y, rfl, hy, hxy⟩ := h
  obtain ⟨z, hz, hzok, hyz⟩ := hf y hy
  exact ⟨z, hz, hzok, hxy.trans hyz⟩

/-- One word presented at a legal position (R204). -/
theorem goesOn_present (w : CmdWord) {x : Session} (hok : x.block.SequencerOk) : GoesOn (present w x) x := by
  have hplace : (place (.cmd w) x.block).SequencerOk := hok
  obtain ⟨u, hu⟩ := hplace.step_next
  exact ⟨⟨u, x.responses ++ u.rsp.toList⟩, by rw [present, hu], hplace.step hu, _, rfl⟩

theorem goesOn_presentAll (ws : List CmdWord) {x : Session} (hok : x.block.SequencerOk) : GoesOn (presentAll ws x) x := by
  induction ws generalizing x with
  | nil => exact ⟨x, rfl, hok, [], List.append_nil _⟩
  | cons w ws ih => exact (goesOn_present w hok).sessionThen fun y hy => ih hy

theorem goesOn_runWait {x : Session} (hok : x.block.SequencerOk) : GoesOn (runWait x) x := by
  obtain ⟨y, polls, hy, hw, hyok⟩ := runWait_waited engineKeeps_sequencerOk hok hok
  exact ⟨y, hy, hyok, polls, hw.responses.symm⟩

/-- Every line: its words, and then `WAIT` in a `HASHBLK` (R83, R84). -/
theorem goesOn_run (l : AsmLine) {x : Session} (hok : x.block.SequencerOk) : GoesOn (l.run x) x := by
  cases l with
  | command | word | loadblk | nops | rddigest => exact goesOn_presentAll _ hok
  | wait => exact goesOn_runWait hok
  | hashblk m => exact (goesOn_presentAll _ hok).sessionThen fun _ => goesOn_runWait

theorem goesOn_runLines (ls : List AsmLine) {x : Session} (hok : x.block.SequencerOk) : GoesOn (runLines ls x) x := by
  induction ls generalizing x with
  | nil => exact ⟨x, rfl, hok, [], List.append_nil _⟩
  | cons l ls ih => exact (goesOn_run l hok).sessionThen fun y hy => ih hy

/-- The host notes the answer to the word it presents (R76, R196). -/
theorem present_responses {w : CmdWord} {x y : Session} (hy : present w x = .next y)
    (hf : firstCause (decodeCmd w) x.block ≠ .ok) :
    y.responses = x.responses ++ [⟨firstCause (decodeCmd w) x.block, 0⟩] := by
  obtain ⟨hstep, hr, -⟩ := present_next hy
  obtain ⟨-, hrsp⟩ := step_rsp hstep
  have hy' : y.block.rsp = some ⟨firstCause (decodeCmd w) x.block, 0⟩ :=
    (hrsp _ ⟨rfl, w, rfl, rfl⟩).trans (congrArg (fun d => some (Response.mk _ d)) (if_neg hf))
  rw [hr, hy', Option.toList_some]

/-- `INIT` of a busy core is answered `ERR_BUSY` (R101). -/
theorem run_init_busy {x : Session} (hok : x.block.SequencerOk) (hb : x.block.phase ≠ .idle) :
    ∃ y, (AsmLine.command .init).run x = .next y ∧ y.block.SequencerOk ∧ y.responses = x.responses ++ [⟨.errBusy, 0⟩] := by
  obtain ⟨y, hy, hyok, -⟩ := goesOn_present (cmdOf 0x1 0 0) hok
  have hf : firstCause (decodeCmd (cmdOf 0x1 0 0)) x.block = .errBusy := firstCause_of_busy rfl rfl rfl hb
  have hr := present_responses hy fun hok => nomatch hf.symm.trans hok
  exact ⟨y, (sessionThen_id _).trans hy, hyok, hf ▸ hr⟩

/-- What a finished run returns is the digest its responses allow (R184). -/
theorem digest_of_computeDigest {m : List Byte} {s : State} {run : DriverRun} (h : computeDigest m s = .ok (.next run)) :
    run.digest = usableDigest run.session.responses := by
  rw [computeDigest] at h
  split at h
  · cases h
  · split at h <;> cases h
    rfl

/-- A run in which any response is a refusal returns no digest (R184). -/
theorem digest_eq_none_of_refusal {m : List Byte} {s : State} {run : DriverRun} {r : Response}
    (h : computeDigest m s = .ok (.next run)) (hr : r ∈ run.session.responses) (hc : r.code ≠ .ok) : run.digest = none :=
  (digest_of_computeDigest h).trans (usableDigest_of_refusal hr hc)

/-- Settles O56: the run on a busy core goes on to its last line from the refusal of its `INIT`. -/
theorem refusedRunReturnsNoDigest : Obligations.RefusedRunReturnsNoDigest := by
  refine ⟨fun s m run r => digest_eq_none_of_refusal, fun s m hok hb hm => ?_⟩
  obtain ⟨x, hx, hxok, hxr⟩ := run_init_busy (x := ⟨s, []⟩) hok hb
  obtain ⟨y, hy, -, hxy⟩ := goesOn_runLines ((chunksOf m).map .hashblk ++ [.rddigest]) hxok
  have hrun := computeDigest_of_run (y := y) hm (by
    rw [List.append_assoc, runLines_append, runLines_singleton, hx, sessionThen_next, hy])
  have hfirst : y.responses[0]? = some ⟨.errBusy, 0⟩ := by
    obtain ⟨rs, hrs⟩ := hxy
    rw [← hrs, hxr]
    rfl
  exact ⟨_, hrun, hfirst, digest_eq_none_of_refusal hrun (List.mem_of_getElem? hfirst) (by simp)⟩

end Sys2Proof.Machine
end

section
/-! PROOF. O8, O5: a run of as many edges as the core is from ready does not stop, keeps the invariant, and ends idle (R204). -/

namespace Sys2Proof.Machine

/-- Without `rst` a core that meets the invariant is idle, and meets it, after just the edges it is from ready (R33, R204). -/
theorem State.Inv.run_to_ready {s : State} (h : s.Inv) (hr : s.NoResetFor (edgesToReady s)) :
    ∃ u, core.run (edgesToReady s) s = .next u ∧ u.phase = .idle ∧ u.Inv := by
  have hok : s.SequencerOk := h.1
  obtain ⟨u, hu, hidle, -⟩ := engineKeeps_sequencerOk.run_to_ready rfl hok hok hr
  obtain ⟨v, hv, hinv⟩ := h.run (edgesToReady s)
  cases hu.symm.trans hv
  exact ⟨u, hu, hidle, hinv⟩

/-- Settles O8: the bound is that of every legal position, and the run is the one to the ready core. -/
theorem busyEndsWithinTBusy : Obligations.BusyEndsWithinTBusy :=
  fun _ h hr => ⟨State.SequencerOk.edgesToReady_le h.1, h.run_to_ready hr⟩

/-- Settles O5: neither half of an edge stops under the invariant. -/
theorem noStepStopsUnderTheInvariant : Obligations.NoStepStopsUnderTheInvariant :=
  fun _ h => h.step_next

end Sys2Proof.Machine
end

section
/-! PROOF. O20 to O23: a command is refused exactly when it has a first cause (R196), and the refusal writes the error record and the
response only (R193). No cause looks at what it writes, so a refusal can be repeated (R194) and the flag blocks nothing (R198). -/

namespace Sys2Proof.Machine

/-- Settles O20: every command answers with the first cause that applies. -/
theorem refusalCodeIsTheFirstCause : Obligations.RefusalCodeIsTheFirstCause := by
  intro i s hi
  obtain ⟨c, r, hx, hr, hcode, -⟩ := exec_command_next i s hi
  exact ⟨c, r, hx, hr, hcode⟩

/-- The code a command is answered with is its first cause (R196). -/
theorem firstCause_of_rsp {i : Instr} {s c : State} {r : Response} (hi : i.isCommand = true) (h : exec i s = .next c)
    (hr : c.rsp = some r) : firstCause i s = r.code :=
  congrArg Response.code (Option.some.inj ((rsp_of_exec_command hi h).symm.trans hr))

/-- A command answered with a refusal has just the effect of that refusal (R193). -/
theorem eq_of_refused {i : Instr} {s c : State} {r : Response} (hi : i.isCommand = true) (h : exec i s = .next c)
    (hr : c.rsp = some r) (hc : r.code ≠ .ok) :
    c = { s with err := true, ecode := if s.err = true then s.ecode else r.code.bits, rsp := some ⟨r.code, 0⟩ } :=
  Host.Outcome.next.inj (h.symm.trans (exec_of_refused hi (firstCause_of_rsp hi h hr) hc))

/-- An edge whose command is refused is the edge without it, and then the effect of the refusal (R41, R193). -/
theorem step_of_refused {s e : State} {w : CmdWord} {code : RspCode} (hin : s.input = ⟨false, some w⟩)
    (he : engine s.phase s.beginEdge = .next e) (hf : firstCause (decodeCmd w) s = code) (hc : code ≠ .ok) :
    step s = .next
      { e with err := true, ecode := if s.err = true then s.ecode else code.bits, rsp := some ⟨code, 0⟩ } := by
  have hx := exec_of_refused (s := s.beginEdge) (decodeCmd_isCommand w) hf hc
  rw [step_of_command hin hx, engine_of_record, he]
  rfl

/-- Settles O21: at `exec` the refusal is the whole effect, and at an edge the engine does beside it what it does alone. -/
theorem refusalHasNoOtherEffect : Obligations.RefusalHasNoOtherEffect := by
  refine ⟨fun i s s' r => eq_of_refused, fun s e s' w r hin he hs hr hc => ?_⟩
  have heng : engine s.phase s.beginEdge = .next e :=
    (step_of_silent (s := { s with inputs := ⟨false, none⟩ :: s.inputs.tail }) rfl).symm.trans he
  have hpres : s.Presents (decodeCmd w) := ⟨by rw [hin], w, by rw [hin], rfl⟩
  obtain ⟨-, hrsp⟩ := step_rsp hs
  have hf : firstCause (decodeCmd w) s = r.code :=
    congrArg Response.code (Option.some.inj ((hrsp _ hpres).symm.trans hr))
  exact Host.Outcome.next.inj (hs.symm.trans (step_of_refused hin heng hf hc))

/-- Settles O22: the refusal leaves its own cause standing, and with `err` set it records nothing more. -/
theorem repeatedRefusalIsTheSame : Obligations.RepeatedRefusalIsTheSame := by
  intro i s s' r hi hx hr hc
  have hf := firstCause_of_rsp hi hx hr
  rw [eq_of_refused hi hx hr hc]
  exact exec_of_refused hi hf hc

/-- In two states that differ only in the error record a command leaves two that differ only in it and the response (R198). -/
theorem exec_command_of_record {i : Instr} (hi : i.isCommand = true) (s : State) (x : Bool) (y : BitVec 3) :
    ∃ u v, exec i s = .next u ∧ exec i { s with err := x, ecode := y } = .next v ∧
      v = { u with err := v.err, ecode := v.ecode, rsp := v.rsp } := by
  rcases exec_command_cases i s hi with ⟨hf, hread, -⟩ | ⟨hf, -⟩ | ⟨-, rfl, -⟩ | ⟨-, rfl, hp, -⟩ |
    ⟨-, hp, idx, data, rfl, -⟩ | ⟨-, rfl, hp, hinit, hm, -⟩
  · rcases hread with rfl | rfl | ⟨idx, rfl⟩
    · exact ⟨_, _, rfl, rfl, rfl⟩
    · exact ⟨_, _, rfl, rfl, rfl⟩
    · obtain ⟨hidx, hp, hinit⟩ := of_firstCause_rddig hf
      exact ⟨_, _, exec_rddig_of_idle hidx hp hinit, exec_rddig_of_idle hidx hp hinit, rfl⟩
  · exact ⟨_, _, exec_of_refused hi rfl hf, exec_of_refused hi rfl hf, rfl⟩
  · exact ⟨_, _, rfl, rfl, rfl⟩
  · exact ⟨_, _, exec_init_of_idle hp, exec_init_of_idle hp, rfl⟩
  · exact ⟨_, _, exec_loadw_of_idle hp idx data, exec_loadw_of_idle (s := { s with err := x, ecode := y }) hp idx data, rfl⟩
  · exact ⟨_, _, exec_start_of_loaded hp hinit hm, exec_start_of_loaded hp hinit hm, rfl⟩

/-- Only the status word shows the error record (R78, R198). -/
theorem answerData_of_record {i : Instr} (hi : i ≠ .rdstat) (s : State) (x : Bool) (y : BitVec 3) :
    answerData i { s with err := x, ecode := y } = answerData i s := by
  cases i with
  | rdstat => exact absurd rfl hi
  | nop | init | loadw | start | rddig | clrerr | reserved7 | reserved8to15 | expand | round | fold => rfl

/-- Settles O23: the causes and, but for the status word, the data answered do not look at the error record. -/
theorem errorFlagBlocksNothing : Obligations.ErrorFlagBlocksNothing := by
  intro i s x y hi
  obtain ⟨u, v, hu, hv, hframe⟩ := exec_command_of_record hi s x y
  refine ⟨u, v, _, _, hu, hv, rsp_of_exec_command hi hu, rsp_of_exec_command hi hv, rfl, fun hs => ?_, hframe⟩
  have hf : firstCause i { s with err := x, ecode := y } = firstCause i s := rfl
  rw [answerData_of_record hs s x y, hf]

end Sys2Proof.Machine
end

section
/-! PROOF. O9, O2: every edge without `rst` brings a busy core one edge nearer to ready, and at a legal position the number of edges
to go says where the sequencer stands (R33, R236); a reset edge looks at nothing else (R220). -/

namespace Sys2Proof.Machine

/-- A legal position is the one of the table of edge counts with as many edges to go to `T_BUSY` (R42, R236). -/
theorem State.SequencerOk.position_eq {s : State} (h : s.SequencerOk) :
    (s.phase, s.t.toNat) = positionAfterStart (145 - edgesToReady s) := by
  rcases h.cases with ⟨hp, ht⟩ | ⟨hp, h16, h79⟩ | ⟨hp, h79⟩ | ⟨hp, ht⟩
  · simp [edgesToReady, positionAfterStart, hp, ht]
  · have hk : 145 - edgesToReady s = s.t.toNat - 16 := by
      simp only [edgesToReady, hp, Config.params]
      omega
    rw [hk, positionAfterStart, if_pos (by omega), hp, Nat.add_sub_cancel' h16]
  · have hk : 145 - edgesToReady s = s.t.toNat + 64 := by
      simp only [edgesToReady, hp, Config.params]
      omega
    rw [hk, positionAfterStart, if_neg (by omega), if_pos (by omega), hp, Nat.add_sub_cancel]
  · simp [edgesToReady, positionAfterStart, Config.params, hp, ht]

/-- Without `rst`, `k` edges bring a core at a legal position `k` edges nearer to ready, whatever the host presents (R33, R204). -/
theorem State.SequencerOk.run_counts_down {s : State} {k : Nat} (h : s.SequencerOk) (hk : k ≤ edgesToReady s)
    (hr : s.NoResetFor k) : ∃ u, core.run k s = .next u ∧ u.SequencerOk ∧ edgesToReady u + k = edgesToReady s := by
  induction k generalizing s with
  | zero => exact ⟨s, by rfl, h, rfl⟩
  | succ k ih =>
    have hb : s.phase ≠ .idle := fun hp => by simp [edgesToReady_of_idle hp] at hk
    obtain ⟨v, hv⟩ := h.step_next
    have hnear := edgesToReady_of_nextPosition hb h (step_position_of_busy hv hr.input_rst hb)
    obtain ⟨u, hu, hok, hcount⟩ := ih (h.step hv) (by omega) (hr.tail (step_inputs hv))
    exact ⟨u, (core_run_succ hv k).trans hu, hok, by omega⟩

/-- Settles O9: an accepted `START` leaves the core 145 edges from ready, and `k` edges later it is `145 - k` edges from ready. -/
theorem edgeCountsOfAChunk : Obligations.EdgeCountsOfAChunk := by
  intro s hs hr k hk
  have hstep := step_of_acceptsStart hs
  have hk' : s.NoResetFor (k + 1) := fun j inp hj => hr j inp (by omega)
  obtain ⟨u, hu, hok, hcount⟩ :=
    State.SequencerOk.run_counts_down (s := (s.beginEdge.latch.moveTo .expand 16).respond .ok 0) rfl hk
      (hk'.tail (step_inputs hstep))
  have hstart : edgesToReady ((s.beginEdge.latch.moveTo .expand 16).respond .ok 0) = 145 := rfl
  have hgone : 145 - edgesToReady u = k := by omega
  exact ⟨u, (core_run_succ hstep k).trans hu, hgone ▸ hok.position_eq⟩

/-- Settles O2: such an edge leaves the reset of the state it begins with. -/
theorem resetOverridesEverything : Obligations.ResetOverridesEverything :=
  fun s hr => ⟨_, step_of_rst hr, s.beginEdge.toReset_atReset, rfl⟩

end Sys2Proof.Machine
end
